-- ==== Sys2Proof/Word.lean ====
section
/-! DEFINITION. The words of the block (00_scope.md R10, R12): bit 0 is the least significant bit. -/

namespace Sys2Proof

/-- An operand word OPA or OPB, and the result register RES: 64 bits (R10). -/
abbrev Word := BitVec 64

/-- A command word CMD: 32 bits (R10, R70). -/
abbrev CmdWord := BitVec 32

/-- One byte on a byte-addressed host bus (R53). -/
abbrev Byte := BitVec 8

end Sys2Proof
end

