-- ==== Sys2Proof/Config.lean ====
section
/-! DEFINITION. The parameters of a block (00_scope.md R8, R9) and the model's one kind of free value. -/

namespace Sys2Proof

/-- `TABLE_VARIANT` (R8): which sector table the block holds. -/
inductive TableVariant where
  | rom
  | ram
deriving DecidableEq, Repr

/-- `TABLE_TIE` (R8, R152): how the exact tie of the 30 degree entry is rounded. -/
inductive TableTie where
  | halfDown
  | halfUp
deriving DecidableEq, Repr

/-- `OUT_RESET` (R8, R29): what CHN1..CHN3 hold after reset. -/
inductive OutReset where
  | zero
  | undefined
deriving DecidableEq, Repr

/-- The configuration of one block, fixed for its life (R8). HOST_MAP is open in the spec (D30) and has no
value here. -/
structure Config where
  /-- `P`: one 60 degree sector has `2^P` angle steps. -/
  precision : Nat
  /-- `SCALE_MAX`: the largest output magnitude. -/
  scaleMax : Nat
  variant : TableVariant
  tie : TableTie
  outReset : OutReset
deriving DecidableEq, Repr

/-- The legal parameter values of R8: `P` in 1..16 and `SCALE_MAX` in 1..65535. -/
abbrev Config.Legal (c : Config) : Prop :=
  1 ≤ c.precision ∧ c.precision ≤ 16 ∧ 1 ≤ c.scaleMax ∧ c.scaleMax ≤ 65535

/-- `N = 2^P`, the angle steps of one sector (R9). -/
abbrev Config.steps (c : Config) : Nat := 2 ^ c.precision

/-- `M = 6 * N`, the size of the electrical-angle domain (R9). -/
abbrev Config.domain (c : Config) : Nat := 6 * c.steps

/-- DESIGN CHOICE (log entry 1): the configuration of the block that `State.reset` shows. It is the one the
spec's own examples and vectors use (43_angle_tracker.md, 95_test_vectors.md), with R8's defaults. -/
def Config.example : Config :=
  { precision := 2, scaleMax := 1000, variant := .rom, tie := .halfDown, outReset := .zero }

/-- FREE VALUE (log entry 4): what the bits of channel register `n` are while it holds no value, that is after
reset with `OUT_RESET = UNDEFINED` (R29). Nothing can be proved of it. -/
opaque Config.unwrittenChannel (n : Nat) : BitVec 32

end Sys2Proof
end

