-- ==== Sys2Proof/Syntax.lean ====
section
/-! DEFINITION. Commands and instructions as data: the type descriptor (30_encoding.md R73), the opcodes (R76),
the three command forms (R70), the command triple (10_state.md R20) and one constructor per row of
opcode_table.json. -/

namespace Sys2Proof

/-- Storage widths (R72). -/
inductive Width where
  | w8
  | w16
  | w32
  | w64
deriving DecidableEq, Repr

/-- A FixedPoint type `T = (W, S, F)` (00_scope.md R11). Legality of `F` is checked in WellFormed. -/
structure FxType where
  width : Width
  /-- `S`: true is signed. -/
  signed : Bool
  /-- `F`, the fractional bits. -/
  frac : Nat
deriving DecidableEq, Repr

/-- A command as the host delivers it on the command port (R20). -/
structure Command where
  cmd : CmdWord
  opa : Word
  opb : Word
deriving DecidableEq, Repr

/-- The opcodes of the map R76. -/
inductive Opcode where
  | fpFromRaw | fpFromReal | fpToReal | fpToFloat
  | fpAdd | fpSub | fpMul | fpDiv | fpMod | fpConvert
  | fpEq | fpNe | fpLt | fpLe | fpGt | fpGe
  | svmSetAngle | svmMove | svmUpdate | tblRead
deriving DecidableEq, Repr

/-- The three command forms (R70): untyped, one type descriptor, two type descriptors. -/
inductive Form where
  | untyped
  | typed
  | convert
deriving DecidableEq, Repr

/-- Why a command word is illegal: the checks of R78, in its order. -/
inductive Illegal where
  /-- OPC is not in the table of R76. -/
  | reservedOpcode
  /-- CMD[31:24] is not zero. -/
  | reservedBits
  /-- U-form with CMD[23:6] not zero. -/
  | untypedBits
  /-- T-form with CMD[23:15] not zero. -/
  | secondTypeBits
  /-- The descriptor of T is not legal. -/
  | illegalType
  /-- The descriptor of T2 is not legal. -/
  | illegalSecondType
deriving DecidableEq, Repr

/-- A command after decoding: the operation with its type descriptors and the operand words it reads (R75;
a command that ignores OPB carries none). -/
inductive Instr where
  | fpFromRaw (t : FxType) (opa : Word)
  | fpFromReal (t : FxType) (opa : Word)
  | fpToReal (t : FxType) (opa : Word)
  | fpToFloat (t : FxType) (opa : Word)
  | fpAdd (t : FxType) (opa opb : Word)
  | fpSub (t : FxType) (opa opb : Word)
  | fpMul (t : FxType) (opa opb : Word)
  | fpDiv (t : FxType) (opa opb : Word)
  | fpMod (t : FxType) (opa opb : Word)
  | fpConvert (t t2 : FxType) (opa : Word)
  | fpEq (t : FxType) (opa opb : Word)
  | fpNe (t : FxType) (opa opb : Word)
  | fpLt (t : FxType) (opa opb : Word)
  | fpLe (t : FxType) (opa opb : Word)
  | fpGt (t : FxType) (opa opb : Word)
  | fpGe (t : FxType) (opa opb : Word)
  | svmSetAngle (opa : Word)
  | svmMove (opa : Word)
  | svmUpdate (t : FxType) (opa : Word)
  | tblRead (opa : Word)
deriving DecidableEq, Repr

end Sys2Proof
end

