-- ==== Sys2Proof/Machine/Operands.lean ====
section
/-! DEFINITION. Reading operands and forming results: the integer helpers of 00_scope.md R14, the operand forms
of 30_encoding.md R75, and the IEEE 754 patterns of R15. Everything is computed on exact integers and narrowed
at the end (R13). -/

namespace Sys2Proof

/-- `W`, the storage width in bits (R72). -/
def Width.bits : Width → Nat
  | .w8 => 8
  | .w16 => 16
  | .w32 => 32
  | .w64 => 64

/-- A descriptor is legal when `F <= min(W, 63)` (R73). -/
def FxType.legal (t : FxType) : Bool := decide (t.frac ≤ min t.width.bits 63)

namespace Machine

/-! ## Integer helpers (R14) -/

/-- `2^k` as an integer. -/
abbrev pow2 (k : Nat) : Int := ((2 ^ k : Nat) : Int)

/-- `floor_div(a, b)`, used with `b > 0` only, where Euclidean division is the floor. -/
def floorDiv (a b : Int) : Int := a / b

/-- `asr(a, k)`: the arithmetic right shift, floor of `a / 2^k`. -/
def asr (a : Int) (k : Nat) : Int := floorDiv a (pow2 k)

/-- `trunc_div(a, b)`: rounded toward zero. -/
def truncDiv (a b : Int) : Int := a.tdiv b

/-- `trunc_rem(a, b) = a - b * trunc_div(a, b)`. -/
def truncRem (a b : Int) : Int := a - b * truncDiv a b

/-- `emod(a, m)`: the Euclidean remainder. -/
def emod (a m : Int) : Int := a % m

/-- `wrap_T(n)`: the value of the W-bit pattern congruent to `n` modulo `2^W`. -/
def wrapT (t : FxType) (n : Int) : Int :=
  if t.signed then emod (n + pow2 (t.width.bits - 1)) (pow2 t.width.bits) - pow2 (t.width.bits - 1)
  else emod n (pow2 t.width.bits)

/-- `val_T(x)`: the low W bits of `x`, signed or unsigned as T says; the bits above are ignored. -/
def valT (t : FxType) (x : Word) : Int :=
  if t.signed then (x.setWidth t.width.bits).toInt else (x.setWidth t.width.bits).toNat

/-- The integers of a type T: what W bits hold, signed or unsigned. -/
def InRange (t : FxType) (n : Int) : Prop :=
  if t.signed then -pow2 (t.width.bits - 1) ≤ n ∧ n < pow2 (t.width.bits - 1)
  else 0 ≤ n ∧ n < pow2 t.width.bits

/-- `out_T(n)`: sign extension (signed T) or zero extension (unsigned T) to 64 bits; for an `n` in the range of
T both are the 64-bit pattern of `n`. -/
def outT (t : FxType) (n : Int) : Word :=
  if t.signed then BitVec.ofInt 64 n else BitVec.ofNat 64 n.toNat

/-- `sext_32(OPA[31:0])`, the angle operand (R75). -/
def sext32 (x : Word) : Int := (x.setWidth 32).toInt

/-- `zext_32(OPA[31:0])`, the table index (R75). -/
def zext32 (x : Word) : Nat := (x.setWidth 32).toNat

/-! ## binary64 operands (R15) -/

/-- `x[62:52]`. -/
def binary64Exponent (x : Word) : Nat := (x.extractLsb' 52 11).toNat

/-- `x[51:0]`. -/
def binary64Fraction (x : Word) : Nat := (x.extractLsb' 0 52).toNat

/-- `is_nan_or_inf(x)`: the exponent field is all ones. -/
def isNanOrInf (x : Word) : Bool := binary64Exponent x == 2047

/-- The significand of a finite pattern as an integer: `|real(x)| = significand * 2^(scale - 1075)`. -/
def binary64Significand (x : Word) : Nat :=
  if binary64Exponent x = 0 then binary64Fraction x else 2 ^ 52 + binary64Fraction x

/-- The scale of a finite pattern, biased by 1075; subnormals share the scale of the smallest normals. -/
def binary64Scale (x : Word) : Nat := max (binary64Exponent x) 1

/-- `m / 2^k` rounded to the nearest integer, halves up; on a magnitude this is `round_half_away`. A magnitude
below half a step rounds to 0, and no power of two is formed for it. -/
def roundHalfUpShift (m k : Nat) : Nat :=
  match k with
  | 0 => m
  | k + 1 => if m.log2 < k then 0 else (m + 2 ^ k) / 2 ^ (k + 1)

/-- `round_half_away(real(x) * 2^F)` of a finite pattern (R102), exact: the magnitude is rounded, then signed. -/
def roundScaledReal (x : Word) (frac : Nat) : Int :=
  let scale := binary64Scale x + frac
  let magnitude :=
    if 1075 ≤ scale then binary64Significand x * 2 ^ (scale - 1075)
    else roundHalfUpShift (binary64Significand x) (1075 - scale)
  if x.getLsbD 63 then -(magnitude : Int) else magnitude

/-! ## binary64 and binary32 results (R15, R105, R107) -/

/-- `m` brought to `sig + 1` significant bits: shifted left when it is short, otherwise rounded to nearest with
ties to even. The result can be `2^(sig + 1)` after rounding up. -/
def roundEvenSignificand (sig m : Nat) : Nat :=
  if m.log2 ≤ sig then m * 2 ^ (sig - m.log2)
  else
    let shift := m.log2 - sig
    let q := m / 2 ^ shift
    let r := m % 2 ^ shift
    let half := 2 ^ (shift - 1)
    if half < r ∨ (r = half ∧ q % 2 = 1) then q + 1 else q

/-- The magnitude bits of the pattern nearest `m * 2^-frac`, for a value in the format's normal range: exponent
field and fraction field are added, so a significand that rounded up to the next power of two carries into the
exponent. `m = 0` gives +0.0. -/
def roundEvenMagnitude (sig bias m frac : Nat) : Nat :=
  if m = 0 then 0
  else (m.log2 + bias - frac) * 2 ^ sig + (roundEvenSignificand sig m - 2 ^ sig)

/-- `rne64(raw * 2^-F)` (R105). -/
def rne64 (raw : Int) (frac : Nat) : Word :=
  BitVec.ofBool (decide (raw < 0)) ++ BitVec.ofNat 63 (roundEvenMagnitude 52 1023 raw.natAbs frac)

/-- `rne32(raw * 2^-F)` (R107). -/
def rne32 (raw : Int) (frac : Nat) : BitVec 32 :=
  BitVec.ofBool (decide (raw < 0)) ++ BitVec.ofNat 31 (roundEvenMagnitude 23 127 raw.natAbs frac)

end Machine
end Sys2Proof
end

