-- ==== Sys2Proof/WellFormed.lean ====
section
/-! DEFINITION. Which instructions are well formed: every type descriptor they carry is legal (30_encoding.md
R73). A FixedPoint type outside R11 has no encoding or an illegal one (U21). -/

namespace Sys2Proof

/-- Every descriptor the instruction carries is legal; the operand words are unconstrained (R75). -/
def Instr.wellFormed : Instr → Bool
  | .fpFromRaw t _ => t.legal
  | .fpFromReal t _ => t.legal
  | .fpToReal t _ => t.legal
  | .fpToFloat t _ => t.legal
  | .fpAdd t _ _ => t.legal
  | .fpSub t _ _ => t.legal
  | .fpMul t _ _ => t.legal
  | .fpDiv t _ _ => t.legal
  | .fpMod t _ _ => t.legal
  | .fpConvert t t2 _ => t.legal && t2.legal
  | .fpEq t _ _ => t.legal
  | .fpNe t _ _ => t.legal
  | .fpLt t _ _ => t.legal
  | .fpLe t _ _ => t.legal
  | .fpGt t _ _ => t.legal
  | .fpGe t _ _ => t.legal
  | .svmSetAngle _ => true
  | .svmMove _ => true
  | .svmUpdate t _ => t.legal
  | .tblRead _ => true

end Sys2Proof
end

