-- ==== Sys2Proof/Decode.lean ====
section
/-! DEFINITION. Decoding a command, total on every command word (30_encoding.md R78), and after it the encoder,
written from the same field table R71. -/

namespace Sys2Proof

/-- The opcode map R76; `none` is a reserved opcode (R79). -/
def Opcode.ofBits (opc : BitVec 6) : Option Opcode :=
  match opc.toNat with
  | 0x01 => some .fpFromRaw
  | 0x02 => some .fpFromReal
  | 0x03 => some .fpToReal
  | 0x04 => some .fpToFloat
  | 0x08 => some .fpAdd
  | 0x09 => some .fpSub
  | 0x0A => some .fpMul
  | 0x0B => some .fpDiv
  | 0x0C => some .fpMod
  | 0x0D => some .fpConvert
  | 0x10 => some .fpEq
  | 0x11 => some .fpNe
  | 0x12 => some .fpLt
  | 0x13 => some .fpLe
  | 0x14 => some .fpGt
  | 0x15 => some .fpGe
  | 0x20 => some .svmSetAngle
  | 0x21 => some .svmMove
  | 0x22 => some .svmUpdate
  | 0x23 => some .tblRead
  | _ => none

/-- The form column of R76. -/
def Opcode.form : Opcode → Form
  | .fpConvert => .convert
  | .svmSetAngle => .untyped
  | .svmMove => .untyped
  | .tblRead => .untyped
  | _ => .typed

/-- The width code of R72. -/
def Width.ofCode (code : BitVec 2) : Width :=
  match code.toNat with
  | 0 => .w8
  | 1 => .w16
  | 2 => .w32
  | _ => .w64

/-- `desc(d)`: a 9-bit field read as a type (R73). -/
def FxType.ofDescriptor (d : BitVec 9) : FxType :=
  { width := Width.ofCode (d.extractLsb' 0 2)
    signed := d.getLsbD 2
    frac := (d.extractLsb' 3 6).toNat }

/-- `decode(CMD)`, the checks of R78 in its order. It reads no operand and no state. For a U-form the two
types are those of zero bits and mean nothing. -/
def decodeWord (cmd : CmdWord) : Except Illegal (Opcode × FxType × FxType) :=
  let t := FxType.ofDescriptor (cmd.extractLsb' 6 9)
  let t2 := FxType.ofDescriptor (cmd.extractLsb' 15 9)
  match Opcode.ofBits (cmd.extractLsb' 0 6) with
  | none => .error .reservedOpcode
  | some op =>
    if cmd.extractLsb' 24 8 ≠ 0#8 then .error .reservedBits
    else
      match op.form with
      | .untyped =>
        if cmd.extractLsb' 6 18 ≠ 0#18 then .error .untypedBits else .ok (op, t, t2)
      | .typed =>
        if cmd.extractLsb' 15 9 ≠ 0#9 then .error .secondTypeBits
        else if t.legal then .ok (op, t, t2) else .error .illegalType
      | .convert =>
        if t.legal then (if t2.legal then .ok (op, t, t2) else .error .illegalSecondType)
        else .error .illegalType

/-- Which descriptors and operand words each operation takes (R74, R75). -/
def Opcode.toInstr (op : Opcode) (t t2 : FxType) (opa opb : Word) : Instr :=
  match op with
  | .fpFromRaw => .fpFromRaw t opa
  | .fpFromReal => .fpFromReal t opa
  | .fpToReal => .fpToReal t opa
  | .fpToFloat => .fpToFloat t opa
  | .fpAdd => .fpAdd t opa opb
  | .fpSub => .fpSub t opa opb
  | .fpMul => .fpMul t opa opb
  | .fpDiv => .fpDiv t opa opb
  | .fpMod => .fpMod t opa opb
  | .fpConvert => .fpConvert t t2 opa
  | .fpEq => .fpEq t opa opb
  | .fpNe => .fpNe t opa opb
  | .fpLt => .fpLt t opa opb
  | .fpLe => .fpLe t opa opb
  | .fpGt => .fpGt t opa opb
  | .fpGe => .fpGe t opa opb
  | .svmSetAngle => .svmSetAngle opa
  | .svmMove => .svmMove opa
  | .svmUpdate => .svmUpdate t opa
  | .tblRead => .tblRead opa

/-- The instruction of a command, or why the command is illegal (R78). -/
def decode (c : Command) : Except Illegal Instr :=
  match decodeWord c.cmd with
  | .ok (op, t, t2) => .ok (op.toInstr t t2 c.opa c.opb)
  | .error e => .error e

/-- A command read from the bits of its three words, CMD first (R80): CMD is bits 31..0, OPA bits 95..32 and
OPB bits 159..96. -/
def Command.ofBits (bits : Nat) : Command :=
  { cmd := BitVec.ofNat 32 bits
    opa := BitVec.ofNat 64 (bits / 2 ^ 32)
    opb := BitVec.ofNat 64 (bits / 2 ^ 96) }

/-- The instruction whose `nbits` low bits are `w` and whose bits above are zero. -/
def decodeTableWord (nbits w : Nat) : Option Instr :=
  (decode (Command.ofBits (w % 2 ^ nbits))).toOption

/-! The encoder. -/

/-- The opcode number of R76. -/
def Opcode.bits : Opcode → BitVec 6
  | .fpFromRaw => 0x01#6
  | .fpFromReal => 0x02#6
  | .fpToReal => 0x03#6
  | .fpToFloat => 0x04#6
  | .fpAdd => 0x08#6
  | .fpSub => 0x09#6
  | .fpMul => 0x0A#6
  | .fpDiv => 0x0B#6
  | .fpMod => 0x0C#6
  | .fpConvert => 0x0D#6
  | .fpEq => 0x10#6
  | .fpNe => 0x11#6
  | .fpLt => 0x12#6
  | .fpLe => 0x13#6
  | .fpGt => 0x14#6
  | .fpGe => 0x15#6
  | .svmSetAngle => 0x20#6
  | .svmMove => 0x21#6
  | .svmUpdate => 0x22#6
  | .tblRead => 0x23#6

/-- The width code of R72. -/
def Width.code : Width → BitVec 2
  | .w8 => 0#2
  | .w16 => 1#2
  | .w32 => 2#2
  | .w64 => 3#2

/-- The 9-bit descriptor of a type (R71, R73): F, then S, then the width code, most significant first. -/
def FxType.descriptor (t : FxType) : BitVec 9 :=
  BitVec.ofNat 6 t.frac ++ BitVec.ofBool t.signed ++ t.width.code

/-- A command word with its second and first descriptor fields (R71). -/
def cmdWord (op : Opcode) (d2 d : BitVec 9) : CmdWord :=
  0#8 ++ d2 ++ d ++ op.bits

/-- The U-form command word. -/
def Opcode.untypedWord (op : Opcode) : CmdWord := cmdWord op 0#9 0#9

/-- The T-form command word. -/
def Opcode.typedWord (op : Opcode) (t : FxType) : CmdWord := cmdWord op 0#9 t.descriptor

/-- The C-form command word. -/
def Opcode.convertWord (op : Opcode) (t t2 : FxType) : CmdWord := cmdWord op t2.descriptor t.descriptor

/-- The words of an instruction; an unused OPB is 0 (R81). -/
def encode : Instr → Command
  | .fpFromRaw t a => ⟨Opcode.fpFromRaw.typedWord t, a, 0#64⟩
  | .fpFromReal t a => ⟨Opcode.fpFromReal.typedWord t, a, 0#64⟩
  | .fpToReal t a => ⟨Opcode.fpToReal.typedWord t, a, 0#64⟩
  | .fpToFloat t a => ⟨Opcode.fpToFloat.typedWord t, a, 0#64⟩
  | .fpAdd t a b => ⟨Opcode.fpAdd.typedWord t, a, b⟩
  | .fpSub t a b => ⟨Opcode.fpSub.typedWord t, a, b⟩
  | .fpMul t a b => ⟨Opcode.fpMul.typedWord t, a, b⟩
  | .fpDiv t a b => ⟨Opcode.fpDiv.typedWord t, a, b⟩
  | .fpMod t a b => ⟨Opcode.fpMod.typedWord t, a, b⟩
  | .fpConvert t t2 a => ⟨Opcode.fpConvert.convertWord t t2, a, 0#64⟩
  | .fpEq t a b => ⟨Opcode.fpEq.typedWord t, a, b⟩
  | .fpNe t a b => ⟨Opcode.fpNe.typedWord t, a, b⟩
  | .fpLt t a b => ⟨Opcode.fpLt.typedWord t, a, b⟩
  | .fpLe t a b => ⟨Opcode.fpLe.typedWord t, a, b⟩
  | .fpGt t a b => ⟨Opcode.fpGt.typedWord t, a, b⟩
  | .fpGe t a b => ⟨Opcode.fpGe.typedWord t, a, b⟩
  | .svmSetAngle a => ⟨Opcode.svmSetAngle.untypedWord, a, 0#64⟩
  | .svmMove a => ⟨Opcode.svmMove.untypedWord, a, 0#64⟩
  | .svmUpdate t a => ⟨Opcode.svmUpdate.typedWord t, a, 0#64⟩
  | .tblRead a => ⟨Opcode.tblRead.untypedWord, a, 0#64⟩

end Sys2Proof
end

