-- ==== Sys2Proof/Machine/State.lean ====
section
/-! DEFINITION. The architectural state of the block (10_state.md), the reasons a step of the model can stop, and
the state after reset (70_reset_and_hazards.md R260). -/

namespace Sys2Proof.Machine

/-- Why the model stops with a fault. No command of an admitted block does (93_implementation_defined.md: "every
command of every admitted configuration completes"); both reasons stand for what the rules say never occurs, and
no state that meets `State.Inv` reaches them. Both are safe. -/
inductive Fault where
  /-- Raised where `MemRead` is asked for an entry outside the table: "A model must not give `MemRead` a value
  outside the range" (R52). Safe: the model stops. -/
  | tableIndexOutOfRange
  /-- Raised by SVM_UPDATE when SECTOR is 6 or 7, which "never occur" (R24, R192). Safe: the model stops. -/
  | sectorNeverOccurs
deriving DecidableEq, Repr

/-- Why the model gives a step no meaning. -/
inductive Refusal where
  /-- Raised by an arm of `exec` that has no meaning yet. Safe. -/
  | notModelled (mnemonic : String)
  /-- Raised by `step` on a state whose configuration R8 does not admit: "refuse (no instance)" (U20). Safe: no
  such block exists. -/
  | configurationNotAdmitted
deriving DecidableEq, Repr

/-- The whole state (R41), with the instance's constant configuration (R8, R34, R35) and the model's own list of
commands the host has issued (log entry 2). -/
structure State where
  /-- The parameters CONFIG shows and the table store is made of; no command writes them. -/
  config : Config
  /-- ANGLE (R22). -/
  angle : BitVec 32
  /-- CHN1 (R28). -/
  chn1 : BitVec 32
  /-- CHN2 (R28). -/
  chn2 : BitVec 32
  /-- CHN3 (R28). -/
  chn3 : BitVec 32
  /-- Whether CHN1..CHN3 hold a value (R29). -/
  chnValid : Bool
  /-- RES (R31). -/
  res : Word
  /-- STATUS (R32): CODE in bits 2:0, bits 7:3 read 0. -/
  status : BitVec 8
  /-- FAULTS (R33): sticky bits 1 to 5, the others read 0. -/
  faults : BitVec 8
  /-- The commands issued and not yet accepted, oldest first (R20, R58; the model's own field). -/
  port : List Command
deriving DecidableEq, Repr

/-- CHN `n` after reset (R29): zero, or no value, whose bits are then a free value. -/
def State.channelAfterReset (c : Config) (n : Nat) : BitVec 32 :=
  match c.outReset with
  | .zero => 0#32
  | .undefined => Config.unwrittenChannel n

/-- The state of a block with configuration `c` right after reset (R260), with no command issued yet. -/
def State.afterReset (c : Config) : State :=
  { config := c
    angle := 0#32
    chn1 := State.channelAfterReset c 1
    chn2 := State.channelAfterReset c 2
    chn3 := State.channelAfterReset c 3
    chnValid := decide (c.outReset = .zero)
    res := 0#64
    status := 0#8
    faults := 0#8
    port := [] }

/-- The state after reset of the example configuration (log entry 1). -/
def State.reset : State := State.afterReset Config.example

end Sys2Proof.Machine
end

