-- ==== Sys2Proof/Machine/Flags.lean ====
section
/-! DEFINITION. The status mechanism (60_exceptions.md R220, R223; 10_state.md R32, R33). The block has no
condition flags (R38): a comparison's result is a value of RES (R131). -/

namespace Sys2Proof.Machine

/-- The statuses other than OK (R220); code 0 is OK, codes 6 and 7 are never produced. -/
inductive CommandFault where
  | illegalCommand
  | divisionByZero
  | invalidOperand
  | indexOutOfRange
  | modulationRange
deriving DecidableEq, Repr

/-- The code column of R220. -/
def CommandFault.code : CommandFault → Nat
  | .illegalCommand => 1
  | .divisionByZero => 2
  | .invalidOperand => 3
  | .indexOutOfRange => 4
  | .modulationRange => 5

/-- STATUS after a command that ends OK: CODE 0, reserved bits 0 (R32). -/
def statusOk : BitVec 8 := 0#8

/-- STATUS after a command that ends with `e` (R32). -/
def statusOf (e : CommandFault) : BitVec 8 := BitVec.ofNat 8 e.code

/-- FAULTS with bit `e` set (R33, R223): `FAULTS[E] <- 1`. -/
def setSticky (faults : BitVec 8) (e : CommandFault) : BitVec 8 := faults ||| (1#8 <<< e.code)

/-- The Boolean result of a comparison in RES: `zext_64(1 if p else 0)` (R131). -/
def boolResult (p : Bool) : Word := if p then 1#64 else 0#64

end Sys2Proof.Machine
end

