-- ==== Sys2Proof/Machine/Table.lean ====
section
/-! DEFINITION. The table store (10_state.md R35, 20_memory.md R50..R52, 42_sector_table.md R150..R158).

Entry `i` is `round(SCALE_MAX * sin(60° - i * 60° / 2^P))` with the exact real sine (R150). Since
`sin(60° - φ) = cos(30° + φ)`, the entry is `round(SCALE_MAX * cos(j * 60° / 2^P))` with `j = N/2 + i`, and the
cosine is compared with a fraction exactly, by doubling the angle: no approximation is made, and an exact tie is
seen as one (R152). `Sys2Proof/Laws/Table.lean` proves the comparison sound against `Real.cos`. -/

namespace Sys2Proof.Machine

/-- Compares `cos(j * 60° / 2^p)` with `x / d`, for an angle of at most 90°. Both sides are non-negative, so the
order is that of the squares, hence of `cos(2α)` and `2 (x/d)^2 - 1`; past 90° the doubled angle is folded back
with `cos(180° - γ) = -cos γ`. After `p` doublings the angle is 0° or 60°. -/
def cosCompare : Nat → Nat → Nat → Nat → Ordering
  | 0, j, x, d => if j = 0 then compare d x else compare d (2 * x)
  | p + 1, j, x, d =>
    if d < x then .lt
    else if 2 * j ≤ 3 * 2 ^ p then
      if 2 * (x * x) < d * d then .gt else cosCompare p j (2 * (x * x) - d * d) (d * d)
    else if d * d < 2 * (x * x) then .lt
    else (cosCompare p (3 * 2 ^ p - j) (d * d - 2 * (x * x)) (d * d)).swap

/-- Whether entry `i` is at least `e`, for `e > 0`: its exact value is above `e - 1/2`, or equal to it and ties
round up (R150, R152). -/
def entryReaches (c : Config) (i e : Nat) : Bool :=
  match cosCompare c.precision (c.steps / 2 + i) (2 * e - 1) (2 * c.scaleMax) with
  | .gt => true
  | .eq => decide (c.tie = .halfUp)
  | .lt => false

/-- The largest `e < base + 2^bits` that the entry reaches, one bit at a time. -/
def entrySearch (c : Config) (i : Nat) : Nat → Nat → Nat
  | 0, base => base
  | bits + 1, base =>
    if entryReaches c i (base + 2 ^ bits) then entrySearch c i bits (base + 2 ^ bits)
    else entrySearch c i bits base

/-- `entry[i]` (R150), a 16-bit value. -/
def tableEntry (c : Config) (i : Nat) : Nat := entrySearch c i 16 0

/-- The number of entries: `N + 1` for ROM, `N` for RAM (R35, R50). -/
def tableSize (c : Config) : Nat :=
  match c.variant with
  | .rom => c.steps + 1
  | .ram => c.steps

/-- `MemRead(i, 2)` (R51), defined only inside the table (R52). -/
def memRead (c : Config) (i : Nat) : Option Nat :=
  if i < tableSize c then some (tableEntry c i) else none

/-- The index of the second lookup (R158). -/
def secondIndex (c : Config) (s : Nat) : Nat :=
  match c.variant with
  | .rom => c.steps - s
  | .ram => c.steps - s - 1

/-- `lookup(s)`: the two symmetric reads of an update (R158). -/
def lookup (c : Config) (s : Nat) : Option (Nat × Nat) :=
  match memRead c s, memRead c (secondIndex c s) with
  | some a, some b => some (a, b)
  | _, _ => none

end Sys2Proof.Machine
end

