-- ==== Sys2Proof/Machine/Ops.lean ====
section
/-! DEFINITION. The named operations over the state: how a command ends, the writes of each register, and the
values derived from ANGLE. -/

namespace Sys2Proof.Machine

/-! ## How a command ends (60_exceptions.md) -/

/-- A command ends OK: `STATUS.CODE <- 0` (R21, R220). -/
def State.completeOk (s : State) : State := { s with status := statusOk }

/-- `raise E`: the command ends at once with status E and writes exactly STATUS.CODE and the sticky bit of E
(R222, R223). Control is not transferred and nothing is saved (R228), so there is no return operation (R229). -/
def State.raise (e : CommandFault) (s : State) : State :=
  { s with status := statusOf e, faults := setSticky s.faults e }

/-- The response of a completed command: its status code and RES (R21). -/
def State.response (s : State) : BitVec 3 × Word := (s.status.extractLsb' 0 3, s.res)

/-! ## Register writes -/

/-- `RES <- v` (R31). -/
def State.writeRes (v : Word) (s : State) : State := { s with res := v }

/-- `ANGLE <- v` for a normalised `v` (R22). -/
def State.writeAngle (v : Int) (s : State) : State := { s with angle := BitVec.ofInt 32 v }

/-- `CHN1 <- c1; CHN2 <- c2; CHN3 <- c3`, all together; from then on they hold a value (R28, R29). -/
def State.writeChannels (c1 c2 c3 : Int) (s : State) : State :=
  { s with
    chn1 := BitVec.ofInt 32 c1
    chn2 := BitVec.ofInt 32 c2
    chn3 := BitVec.ofInt 32 c3
    chnValid := true }

/-- A command that writes a result and ends OK. -/
def State.finishRes (v : Word) (s : State) : State := (s.writeRes v).completeOk

/-! ## Values derived from ANGLE (10_state.md) -/

/-- SECTOR (R24): `(ANGLE >> P) & 0x7`. -/
def State.sector (s : State) : BitVec 3 := (s.angle >>> s.config.precision).setWidth 3

/-- SECTOR_ANGLE (R25): `ANGLE & (2^P - 1)`. -/
def State.sectorAngle (s : State) : BitVec 32 := s.angle &&& BitVec.ofNat 32 (s.config.steps - 1)

/-- `norm(x) = emod(x, M)` (R180). -/
def normAngle (c : Config) (x : Int) : Int := emod x c.domain

/-! ## The command port (R20, R58) -/

/-- The oldest issued command and the state in which it is accepted; `none` when the block is idle (R236). -/
def State.accept (s : State) : Option (Command × State) :=
  match s.port with
  | [] => none
  | c :: rest => some (c, { s with port := rest })

/-- The state with `c` as the command the block accepts next. -/
def State.withCommand (c : Command) (s : State) : State := { s with port := c :: s.port.tail }

/-! ## Reset asserted by the host (R260, R262) -/

/-- Reset puts every register in its reset state; the configuration is a constant, and what the host has issued is
the host's (log entry 2). How reset is asserted is HOST_MAP. -/
def State.assertReset (s : State) : State := { State.afterReset s.config with port := s.port }

end Sys2Proof.Machine
end

