-- ==== Sys2Proof/Machine/FixedPoint.lean ====
section
/-! DEFINITION. The sixteen FixedPoint commands (41_fixed_point.md). Each reads only its type and operands and,
when it ends OK, writes RES and STATUS (R140). -/

namespace Sys2Proof.Machine

/-- The outcome type of a meaning. -/
abbrev Outcome := Host.Outcome State Fault Refusal

/-- A comparison of `val_T(OPA)` with `val_T(OPB)` (R130, R131). -/
def compareT (rel : Int → Int → Bool) (t : FxType) (opa opb : Word) (s : State) : Outcome :=
  .next (s.finishRes (boolResult (rel (valT t opa) (valT t opb))))

/-- The shift of FP_CONVERT from `F` to `F2` fractional bits (R124): exact to the left, floor to the right. -/
def rescale (v : Int) (frac frac2 : Nat) : Int :=
  if frac ≤ frac2 then v * pow2 (frac2 - frac) else asr v (frac - frac2)

/-- FP_FROM_RAW (R100). -/
def execFpFromRaw (t : FxType) (opa : Word) (s : State) : Outcome :=
  .next (s.finishRes (outT t (valT t opa)))

/-- FP_FROM_REAL (R102). -/
def execFpFromReal (t : FxType) (opa : Word) (s : State) : Outcome :=
  if isNanOrInf opa then .next (s.raise .invalidOperand)
  else .next (s.finishRes (outT t (wrapT t (roundScaledReal opa t.frac))))

/-- FP_TO_REAL (R105). -/
def execFpToReal (t : FxType) (opa : Word) (s : State) : Outcome :=
  .next (s.finishRes (rne64 (valT t opa) t.frac))

/-- FP_TO_FLOAT (R107): the binary32 pattern, zero-extended. -/
def execFpToFloat (t : FxType) (opa : Word) (s : State) : Outcome :=
  .next (s.finishRes ((rne32 (valT t opa) t.frac).setWidth 64))

/-- FP_ADD (R110). -/
def execFpAdd (t : FxType) (opa opb : Word) (s : State) : Outcome :=
  .next (s.finishRes (outT t (wrapT t (valT t opa + valT t opb))))

/-- FP_SUB (R112). -/
def execFpSub (t : FxType) (opa opb : Word) (s : State) : Outcome :=
  .next (s.finishRes (outT t (wrapT t (valT t opa - valT t opb))))

/-- FP_MUL (R114, R116): the exact product, floored, then reduced. -/
def execFpMul (t : FxType) (opa opb : Word) (s : State) : Outcome :=
  .next (s.finishRes (outT t (wrapT t (asr (valT t opa * valT t opb) t.frac))))

/-- FP_DIV (R117). -/
def execFpDiv (t : FxType) (opa opb : Word) (s : State) : Outcome :=
  if valT t opb = 0 then .next (s.raise .divisionByZero)
  else .next (s.finishRes (outT t (wrapT t (truncDiv (valT t opa * pow2 t.frac) (valT t opb)))))

/-- FP_MOD (R120, R121). -/
def execFpMod (t : FxType) (opa opb : Word) (s : State) : Outcome :=
  if valT t opb = 0 then .next (s.raise .divisionByZero)
  else .next (s.finishRes (outT t (truncRem (valT t opa) (valT t opb))))

/-- FP_CONVERT (R124..R126). -/
def execFpConvert (t t2 : FxType) (opa : Word) (s : State) : Outcome :=
  .next (s.finishRes (outT t2 (wrapT t2 (rescale (valT t opa) t.frac t2.frac))))

/-- FP_EQ (R132). -/
def execFpEq (t : FxType) (opa opb : Word) (s : State) : Outcome :=
  compareT (fun a b => decide (a = b)) t opa opb s

/-- FP_NE (R133). -/
def execFpNe (t : FxType) (opa opb : Word) (s : State) : Outcome :=
  compareT (fun a b => decide (a ≠ b)) t opa opb s

/-- FP_LT (R134). -/
def execFpLt (t : FxType) (opa opb : Word) (s : State) : Outcome :=
  compareT (fun a b => decide (a < b)) t opa opb s

/-- FP_LE (R135). -/
def execFpLe (t : FxType) (opa opb : Word) (s : State) : Outcome :=
  compareT (fun a b => decide (a ≤ b)) t opa opb s

/-- FP_GT (R136). -/
def execFpGt (t : FxType) (opa opb : Word) (s : State) : Outcome :=
  compareT (fun a b => decide (b < a)) t opa opb s

/-- FP_GE (R137). -/
def execFpGe (t : FxType) (opa opb : Word) (s : State) : Outcome :=
  compareT (fun a b => decide (b ≤ a)) t opa opb s

end Sys2Proof.Machine
end

