-- ==== Sys2Proof/Machine/AngleTracker.lean ====
section
/-! DEFINITION. The three angle tracker commands (43_angle_tracker.md): the angle quantizer, the scaler and the
sector router. -/

namespace Sys2Proof.Machine

/-- SVM_SET_ANGLE (R181). -/
def execSvmSetAngle (opa : Word) (s : State) : Outcome :=
  .next (s.writeAngle (normAngle s.config (sext32 opa))).completeOk

/-- SVM_MOVE (R183): the sum is formed exactly, then reduced. -/
def execSvmMove (opa : Word) (s : State) : Outcome :=
  .next (s.writeAngle (normAngle s.config (s.angle.toInt + sext32 opa))).completeOk

/-- One table value scaled by the modulation factor (R190): the floor of `scale * m / 2^F`. -/
def scaleBy (t : FxType) (m : Int) (scale : Nat) : Int := asr (scale * m) t.frac

/-- The zero value (R191), clamped at 0. -/
def zeroValue (scaleMax : Nat) (a b : Int) : Int := max 0 (floorDiv (scaleMax - a - b + 1) 2)

/-- The sector router (R192); the sectors 6 and 7 never occur. -/
def route (sector : BitVec 3) (zero a b : Int) : Option (Int × Int × Int) :=
  match sector.toNat with
  | 0 => some (zero, zero + b, zero + a + b)
  | 1 => some (zero, zero + a + b, zero + a)
  | 2 => some (zero + b, zero + a + b, zero)
  | 3 => some (zero + a + b, zero + a, zero)
  | 4 => some (zero + a + b, zero, zero + b)
  | 5 => some (zero + a, zero, zero + a + b)
  | _ => none

/-- The end of SVM_UPDATE (R195): the channels are written together when each fits its register. -/
def finishChannels (c1 c2 c3 : Int) (s : State) : Outcome :=
  if pow2 32 - 1 < max c1 (max c2 c3) then .next (s.raise .modulationRange)
  else .next (s.writeChannels c1 c2 c3).completeOk

/-- SVM_UPDATE from its two table values on (R190, R191, R192, R195). -/
def updateFrom (t : FxType) (m : Int) (scaleA scaleB : Nat) (s : State) : Outcome :=
  let a := scaleBy t m scaleA
  let b := scaleBy t m scaleB
  match route s.sector (zeroValue s.config.scaleMax a b) a b with
  | some (c1, c2, c3) => finishChannels c1 c2 c3 s
  | none => .fault .sectorNeverOccurs

/-- SVM_UPDATE (R195); a negative factor is refused first (R187, R226). -/
def execSvmUpdate (t : FxType) (opa : Word) (s : State) : Outcome :=
  if valT t opa < 0 then .next (s.raise .modulationRange)
  else
    match lookup s.config s.sectorAngle.toNat with
    | some (scaleA, scaleB) => updateFrom t (valT t opa) scaleA scaleB s
    | none => .fault .tableIndexOutOfRange

end Sys2Proof.Machine
end

