-- ==== Sys2Proof/Machine/SectorTable.lean ====
section
/-! DEFINITION. TBL_READ, the one command of 42_sector_table.md. -/

namespace Sys2Proof.Machine

/-- TBL_READ (R160): the index check stands before the read. -/
def execTblRead (opa : Word) (s : State) : Outcome :=
  if tableSize s.config ≤ zext32 opa then .next (s.raise .indexOutOfRange)
  else
    match memRead s.config (zext32 opa) with
    | some v => .next (s.finishRes (BitVec.ofNat 64 v))
    | none => .fault .tableIndexOutOfRange

end Sys2Proof.Machine
end

