-- ==== Sys2Proof/Machine/Dispatch.lean ====
section
/-! DEFINITION. One arm per instruction: each is one direct call of its meaning. -/

namespace Sys2Proof.Machine

def exec (i : Instr) (s : State) : Host.Outcome State Fault Refusal :=
  match i with
  | .fpFromRaw t opa => Sys2Proof.Machine.execFpFromRaw t opa s
  | .fpFromReal t opa => Sys2Proof.Machine.execFpFromReal t opa s
  | .fpToReal t opa => Sys2Proof.Machine.execFpToReal t opa s
  | .fpToFloat t opa => Sys2Proof.Machine.execFpToFloat t opa s
  | .fpAdd t opa opb => Sys2Proof.Machine.execFpAdd t opa opb s
  | .fpSub t opa opb => Sys2Proof.Machine.execFpSub t opa opb s
  | .fpMul t opa opb => Sys2Proof.Machine.execFpMul t opa opb s
  | .fpDiv t opa opb => Sys2Proof.Machine.execFpDiv t opa opb s
  | .fpMod t opa opb => Sys2Proof.Machine.execFpMod t opa opb s
  | .fpConvert t t2 opa => Sys2Proof.Machine.execFpConvert t t2 opa s
  | .fpEq t opa opb => Sys2Proof.Machine.execFpEq t opa opb s
  | .fpNe t opa opb => Sys2Proof.Machine.execFpNe t opa opb s
  | .fpLt t opa opb => Sys2Proof.Machine.execFpLt t opa opb s
  | .fpLe t opa opb => Sys2Proof.Machine.execFpLe t opa opb s
  | .fpGt t opa opb => Sys2Proof.Machine.execFpGt t opa opb s
  | .fpGe t opa opb => Sys2Proof.Machine.execFpGe t opa opb s
  | .svmSetAngle opa => Sys2Proof.Machine.execSvmSetAngle opa s
  | .svmMove opa => Sys2Proof.Machine.execSvmMove opa s
  | .svmUpdate t opa => Sys2Proof.Machine.execSvmUpdate t opa s
  | .tblRead opa => Sys2Proof.Machine.execTblRead opa s

end Sys2Proof.Machine
end

