-- ==== Sys2Proof/Machine/Step.lean ====
section
/-! DEFINITION. One step: the block accepts the oldest issued command and runs it to completion (10_state.md R20,
R21; 20_memory.md R58). -/

namespace Sys2Proof.Machine

/-- One command (R226): the decode checks first; an illegal command ends with ILLEGAL_COMMAND (R78). -/
def runCommand (c : Command) (s : State) : Host.Outcome State Fault Refusal :=
  match decode c with
  | .ok i => exec i s
  | .error _ => .next (s.raise .illegalCommand)

/-- One step of an admitted block (R8, U20): one command, or nothing while the block is idle (R236). -/
def step (s : State) : Host.Outcome State Fault Refusal :=
  if s.config.Legal then
    match s.accept with
    | some (c, s') => runCommand c s'
    | none => .next s
  else .refused .configurationNotAdmitted

/-- `s` with the command whose `nbits` low bits are `w`, and whose bits above are zero, as the one the block
accepts next: the host issues it on the port (log entry 3). -/
def State.withFetchWord (s : State) (nbits w : Nat) : State :=
  s.withCommand (Command.ofBits (w % 2 ^ nbits))

end Sys2Proof.Machine
end

