-- ==== Sys2Proof/Machine/Assembler.lean ====
section
/-! DEFINITION. The assembler's line syntax (30_encoding.md R81), its literals, and the pseudo-instructions and
their expansions (R82), over lists of characters. A line that is not in the syntax has no commands (`none`). -/

namespace Sys2Proof.Machine

/-- The operand literals of R81: an integer, or the pattern of a real. -/
inductive Literal where
  | int (n : Int)
  | real (pattern : Word)
deriving DecidableEq, Repr

/-! ## Literals -/

/-- The value of a digit in a base of at most 16. -/
def digitValue (base : Nat) (c : Char) : Option Nat :=
  let v :=
    if '0' ≤ c ∧ c ≤ '9' then some (c.toNat - '0'.toNat)
    else if 'a' ≤ c ∧ c ≤ 'f' then some (c.toNat - 'a'.toNat + 10)
    else if 'A' ≤ c ∧ c ≤ 'F' then some (c.toNat - 'A'.toNat + 10)
    else none
  v.filter (· < base)

/-- Digits after the first, most significant first; `_` only groups digits (00_scope.md R12). -/
def digitsFrom (base : Nat) : Nat → List Char → Option Nat
  | acc, [] => some acc
  | acc, c :: cs =>
    if c = '_' then digitsFrom base acc cs
    else (digitValue base c).bind fun v => digitsFrom base (acc * base + v) cs

/-- A non-empty digit string. -/
def digits (base : Nat) : List Char → Option Nat
  | [] => none
  | c :: cs => (digitValue base c).bind fun v => digitsFrom base v cs

/-- A magnitude: decimal, or hexadecimal after `0x`. -/
def magnitude : List Char → Option Nat
  | '0' :: 'x' :: cs => digits 16 cs
  | cs => digits 10 cs

/-- An integer literal: "decimal, or hexadecimal `0x...`, optionally negative". -/
def intLiteral : List Char → Option Int
  | '-' :: cs => (magnitude cs).map fun n => -(n : Int)
  | cs => (magnitude cs).map fun n => (n : Int)

/-- The 64-bit two's-complement pattern of an integer literal; a literal outside 64 bits has none (log entry 7). -/
def intPattern (n : Int) : Option Word :=
  if -pow2 63 ≤ n ∧ n < pow2 64 then some (BitVec.ofInt 64 n) else none

/-- The binary64 magnitude bits of `m / 2^k`, when binary64 holds it exactly. -/
def exactMagnitude (m k : Nat) : Option Nat :=
  if m = 0 then some 0
  else if k ≤ m.log2 + 1022 then
    if m.log2 ≤ k + 1023 ∧ (m.log2 ≤ 52 ∨ m % 2 ^ (m.log2 - 52) = 0) then
      some ((m.log2 + 1023 - k) * 2 ^ 52 + (m * 2 ^ 52 / 2 ^ m.log2 - 2 ^ 52))
    else none
  else if m * 2 ^ 1074 % 2 ^ k = 0 then some (m * 2 ^ 1074 / 2 ^ k)
  else none

/-- A decimal magnitude `n / 10^k`, exactly representable only when `5^k` divides `n`. -/
def decimalMagnitude (n k : Nat) : Option Nat :=
  if n % 5 ^ k = 0 then exactMagnitude (n / 5 ^ k) k else none

/-- A decimal real without its sign: digits, and optionally a point and digits. DESIGN CHOICE (log entry 7): R81
gives no grammar of a decimal real; an exponent part (`1e-3`), and a point with no digit on one side of it (`.5`,
`5.`), are not read. -/
def realMagnitude (cs : List Char) : Option Nat :=
  match cs.splitOn '.' with
  | [whole] => (digits 10 whole).bind fun n => decimalMagnitude n 0
  | [whole, part] =>
    (digits 10 whole).bind fun _ => (digits 10 part).bind fun _ =>
      (digits 10 (whole ++ part)).bind fun n =>
        decimalMagnitude n (part.filter (· ≠ '_')).length
  | _ => none

/-- A real literal: "a decimal real literal exactly representable in binary64, or a hexadecimal literal giving
the binary64 pattern" (R81); a minus sign stands before a decimal one only (log entry 7). -/
def realPattern : List Char → Option Word
  | '0' :: 'x' :: cs => (digits 16 cs).bind fun n => intPattern n
  | '-' :: cs => (realMagnitude cs).map fun m => BitVec.ofNat 64 (2 ^ 63 + m)
  | cs => (realMagnitude cs).map fun m => BitVec.ofNat 64 m

/-! ## Type suffixes (00_scope.md R18) -/

/-- The storage widths a suffix may name. -/
def widthOfBits : Nat → Option Width
  | 8 => some .w8
  | 16 => some .w16
  | 32 => some .w32
  | 64 => some .w64
  | _ => none

/-- `sWqF` or `uWqF`; F fits its 6-bit field, and may make the descriptor illegal (95_test_vectors.md V5). -/
def typeSuffix : List Char → Option FxType
  | sign :: cs =>
    match cs.splitOn 'q' with
    | [w, f] =>
      (digits 10 w).bind fun wBits => (widthOfBits wBits).bind fun width => (digits 10 f).bind fun frac =>
        if frac < 64 then
          if sign = 's' then some ⟨width, true, frac⟩
          else if sign = 'u' then some ⟨width, false, frac⟩
          else none
        else none
    | _ => none
  | [] => none

/-! ## Lines -/

/-- One source line after parsing: a command, or a pseudo-instruction of R82. -/
inductive AsmLine where
  /-- A T-form command with one operand (`<t> a`). -/
  | unary (op : Opcode) (t : FxType) (a : Word)
  /-- A T-form command with two operands (`<t> a, b`). -/
  | binary (op : Opcode) (t : FxType) (a b : Word)
  /-- `fp.cvt.<t>.<t2> a`. -/
  | cvt (t t2 : FxType) (a : Word)
  /-- A U-form command with one operand. -/
  | plain (op : Opcode) (a : Word)
  /-- `svm.reset_angle`. -/
  | resetAngle
  /-- `svm.step`. -/
  | stepForward
  /-- `svm.back`. -/
  | stepBack
  /-- `svm.tick.<t> d, m`. -/
  | tick (t : FxType) (d m : Word)
  /-- `fp.neg.<t> a`. -/
  | neg (t : FxType) (a : Word)
  /-- `fp.int.<t> n`. -/
  | int (t : FxType) (n : Int)
  /-- `fp.one.<t>`. -/
  | one (t : FxType)
deriving DecidableEq, Repr

/-- The commands of a line (R81, R82); 0 stands in an unused port. -/
def AsmLine.expand : AsmLine → Option (List Command)
  | .unary op t a => some [⟨op.typedWord t, a, 0#64⟩]
  | .binary op t a b => some [⟨op.typedWord t, a, b⟩]
  | .cvt t t2 a => some [⟨Opcode.fpConvert.convertWord t t2, a, 0#64⟩]
  | .plain op a => some [⟨op.untypedWord, a, 0#64⟩]
  | .resetAngle => some [⟨Opcode.svmSetAngle.untypedWord, 0#64, 0#64⟩]
  | .stepForward => some [⟨Opcode.svmMove.untypedWord, 1#64, 0#64⟩]
  | .stepBack => some [⟨Opcode.svmMove.untypedWord, BitVec.ofInt 64 (-1), 0#64⟩]
  | .tick t d m =>
    some [⟨Opcode.svmMove.untypedWord, d, 0#64⟩, ⟨Opcode.svmUpdate.typedWord t, m, 0#64⟩]
  | .neg t a => some [⟨Opcode.fpSub.typedWord t, 0#64, a⟩]
  | .int t n =>
    (intPattern (n * pow2 t.frac)).map fun v => [⟨Opcode.fpFromRaw.typedWord t, v, 0#64⟩]
  | .one t => (intPattern (pow2 t.frac)).map fun v => [⟨Opcode.fpFromRaw.typedWord t, v, 0#64⟩]

/-- The T-form operations with one integer operand, by the middle part of their name. -/
def unaryOf (name : List Char) : Option Opcode :=
  if name = "from_raw".toList then some .fpFromRaw
  else if name = "to_real".toList then some .fpToReal
  else if name = "to_float".toList then some .fpToFloat
  else none

/-- The T-form operations with two operands, by the middle part of their name. -/
def binaryOf (name : List Char) : Option Opcode :=
  if name = "add".toList then some .fpAdd
  else if name = "sub".toList then some .fpSub
  else if name = "mul".toList then some .fpMul
  else if name = "div".toList then some .fpDiv
  else if name = "mod".toList then some .fpMod
  else if name = "eq".toList then some .fpEq
  else if name = "ne".toList then some .fpNe
  else if name = "lt".toList then some .fpLt
  else if name = "le".toList then some .fpLe
  else if name = "gt".toList then some .fpGt
  else if name = "ge".toList then some .fpGe
  else none

/-- One integer operand. -/
def oneOperand (args : List (List Char)) : Option Word :=
  match args with
  | [a] => (intLiteral a).bind intPattern
  | _ => none

/-- Two integer operands. -/
def twoOperands (args : List (List Char)) : Option (Word × Word) :=
  match args with
  | [a, b] =>
    ((intLiteral a).bind intPattern).bind fun x => ((intLiteral b).bind intPattern).map fun y => (x, y)
  | _ => none

/-- `fp.<name>.<t>` with its operands. -/
def parseTypedFp (name : List Char) (t : FxType) (args : List (List Char)) : Option AsmLine :=
  match unaryOf name, binaryOf name with
  | some op, _ => (oneOperand args).map fun a => .unary op t a
  | none, some op => (twoOperands args).map fun ab => .binary op t ab.1 ab.2
  | none, none =>
    if name = "from_real".toList then
      match args with
      | [r] => (realPattern r).map fun a => .unary .fpFromReal t a
      | _ => none
    else if name = "neg".toList then (oneOperand args).map fun a => .neg t a
    else if name = "int".toList then
      match args with
      | [n] => (intLiteral n).map fun v => .int t v
      | _ => none
    else if name = "one".toList then (if args.isEmpty then some (.one t) else none)
    else none

/-- `svm.<name>` and `tbl.read`, without a type. -/
def parsePlain (unit name : List Char) (args : List (List Char)) : Option AsmLine :=
  if unit = "svm".toList then
    if name = "set_angle".toList then (oneOperand args).map fun a => .plain .svmSetAngle a
    else if name = "move".toList then (oneOperand args).map fun a => .plain .svmMove a
    else if name = "reset_angle".toList then (if args.isEmpty then some .resetAngle else none)
    else if name = "step".toList then (if args.isEmpty then some .stepForward else none)
    else if name = "back".toList then (if args.isEmpty then some .stepBack else none)
    else none
  else if unit = "tbl".toList ∧ name = "read".toList then
    (oneOperand args).map fun a => .plain .tblRead a
  else none

/-- `svm.update.<t> m` and `svm.tick.<t> d, m`. -/
def parseTypedSvm (name : List Char) (t : FxType) (args : List (List Char)) : Option AsmLine :=
  if name = "update".toList then (oneOperand args).map fun a => .unary .svmUpdate t a
  else if name = "tick".toList then (twoOperands args).map fun dm => .tick t dm.1 dm.2
  else none

/-- The operation of a line, from the parts of its mnemonic and its operands. -/
def parseOperation (parts args : List (List Char)) : Option AsmLine :=
  match parts with
  | [unit, name] => parsePlain unit name args
  | [unit, name, suffix] =>
    (typeSuffix suffix).bind fun t =>
      if unit = "fp".toList then parseTypedFp name t args
      else if unit = "svm".toList then parseTypedSvm name t args
      else none
  | [unit, name, suffix, suffix2] =>
    if unit = "fp".toList ∧ name = "cvt".toList then
      (typeSuffix suffix).bind fun t => (typeSuffix suffix2).bind fun t2 =>
        (oneOperand args).map fun a => .cvt t t2 a
    else none
  | _ => none

/-- White space inside a line. -/
def isBlank (c : Char) : Bool := c == ' ' || c == '\t' || c == '\r'

/-- A text without the white space at its ends. -/
def trim (cs : List Char) : List Char :=
  ((cs.dropWhile isBlank).reverse.dropWhile isBlank).reverse

/-- The operands of a line: none, or the parts between commas. -/
def operandTexts (cs : List Char) : List (List Char) :=
  if trim cs = [] then [] else (cs.splitOn ',').map trim

/-- One line: `;` starts a comment; an empty line has no commands (R81). -/
def assembleLine (line : List Char) : Option (List Command) :=
  let code := trim (line.takeWhile (· ≠ ';'))
  if code = [] then some []
  else
    (parseOperation ((code.takeWhile (!isBlank ·)).splitOn '.')
      (operandTexts (code.dropWhile (!isBlank ·)))).bind AsmLine.expand

/-- The commands of lines in order; `none` when one line is not in the syntax. -/
def assembleLines : List (List Char) → Option (List Command)
  | [] => some []
  | line :: rest =>
    (assembleLine line).bind fun cs => (assembleLines rest).map fun ds => cs ++ ds

/-- A program text, one command per line (R81). -/
def assemble (text : String) : Option (List Command) := assembleLines (text.toList.splitOn '\n')

end Sys2Proof.Machine
end

