-- ==== Sys2Proof/Machine/HostPort.lean ====
section
/-! DEFINITION. What the host reads between commands (10_state.md R39) and the byte order of a byte-addressed
host bus (20_memory.md R53). A read is a function of the state alone: it has no side effect (R55). -/

namespace Sys2Proof.Machine

/-- The registers the host may read (R39). -/
inductive HostRegister where
  | angle
  | sector
  | sectorAngle
  | chn1
  | chn2
  | chn3
  | res
  | status
  | faults
  | config
deriving DecidableEq, Repr

/-- CONFIG.VARIANT (R34). -/
def variantBit (c : Config) : Nat := if c.variant = .ram then 1 else 0

/-- CONFIG.TIE (R34). -/
def tieBit (c : Config) : Nat := if c.tie = .halfUp then 1 else 0

/-- CONFIG.ORST (R34). -/
def outResetBit (c : Config) : Nat := if c.outReset = .undefined then 1 else 0

/-- CONFIG (R34): SMAX 31:16, VERSION 15:8, ORST 7, TIE 6, VARIANT 5, PREC 4:0. -/
def configWord (c : Config) : BitVec 32 :=
  BitVec.ofNat 16 c.scaleMax ++ 7#8 ++ BitVec.ofNat 1 (outResetBit c) ++ BitVec.ofNat 1 (tieBit c) ++
    BitVec.ofNat 1 (variantBit c) ++ BitVec.ofNat 5 c.precision

/-- The identity string of R2. -/
def identity (c : Config) : String :=
  match c.variant with
  | .rom => "FEL-SVM/v7-ROM"
  | .ram => "FEL-SVM/v7-RAM"

/-- A channel register as the host reads it: `none` while it holds no value (R29). -/
def State.readChannel (s : State) (chn : BitVec 32) : Option Word :=
  if s.chnValid then some (chn.setWidth 64) else none

/-- A host read (R39, R55): the whole register, zero-extended to a word. -/
def State.hostRead (s : State) : HostRegister → Option Word
  | .angle => some (s.angle.setWidth 64)
  | .sector => some (s.sector.setWidth 64)
  | .sectorAngle => some (s.sectorAngle.setWidth 64)
  | .chn1 => s.readChannel s.chn1
  | .chn2 => s.readChannel s.chn2
  | .chn3 => s.readChannel s.chn3
  | .res => some s.res
  | .status => some (s.status.setWidth 64)
  | .faults => some (s.faults.setWidth 64)
  | .config => some ((configWord s.config).setWidth 64)

/-- The bytes each register takes on a byte-addressed bus. SECTOR, 3 bits, takes one byte; SECTOR_ANGLE is read
zero-extended (R25), to the width of ANGLE (log entry 6). -/
def HostRegister.byteCount : HostRegister → Nat
  | .angle => 4
  | .sector => 1
  | .sectorAngle => 4
  | .chn1 => 4
  | .chn2 => 4
  | .chn3 => 4
  | .res => 8
  | .status => 1
  | .faults => 1
  | .config => 4

/-- `n` bytes of a word, little-endian: bits 7:0 at the lowest byte address (R53). -/
def littleEndian (n : Nat) (x : Word) : List Byte :=
  (List.range n).map fun k => x.extractLsb' (8 * k) 8

/-- A register on a byte-addressed host bus (R53). -/
def State.hostReadBytes (s : State) (r : HostRegister) : Option (List Byte) :=
  (s.hostRead r).map (littleEndian r.byteCount)

/-- CMD, OPA and OPB on a byte-addressed host bus (R53). -/
def commandBytes (c : Command) : List Byte × List Byte × List Byte :=
  (littleEndian 4 (c.cmd.setWidth 64), littleEndian 8 c.opa, littleEndian 8 c.opb)

end Sys2Proof.Machine
end

