-- ==== Sys2Proof/Safety.lean ====
section
/-! DEFINITION. What claims about runs use: the invariant of every reachable state and fault freedom. -/

namespace Sys2Proof.Machine

/-- STATUS.CODE as a number (R32). -/
abbrev State.code (s : State) : Nat := (s.status.extractLsb' 0 3).toNat

/-- ANGLE is in the electrical-angle domain (R23). -/
abbrev State.AngleInRange (s : State) : Prop := 0 ≤ s.angle.toInt ∧ s.angle.toInt < s.config.domain

/-- STATUS holds a produced code, and its reserved bits read 0 (R32, R220). -/
abbrev State.StatusLegal (s : State) : Prop := s.code ≤ 5 ∧ s.status.extractLsb' 3 5 = 0#5

/-- The reserved bits 0, 6 and 7 of FAULTS read 0 (R33). -/
abbrev State.FaultsLegal (s : State) : Prop := s.faults &&& 0xC1#8 = 0#8

/-- The last status is recorded in FAULTS when it is not OK (R223, R225). -/
abbrev State.StatusRecorded (s : State) : Prop := s.code ≠ 0 → s.faults.getLsbD s.code = true

/-- With `OUT_RESET = ZERO` the channels always hold a value (R29). -/
abbrev State.ChannelsHeld (s : State) : Prop := s.config.outReset = .zero → s.chnValid = true

/-- The invariant: an admitted configuration and every register in the range its rule gives. -/
abbrev State.Inv (s : State) : Prop :=
  s.config.Legal ∧ s.AngleInRange ∧ s.StatusLegal ∧ s.FaultsLegal ∧ s.StatusRecorded ∧ s.ChannelsHeld

/-- No command since reset ended with a fault: "FAULTS = 0" (R225). -/
abbrev State.FaultFree (s : State) : Prop := s.faults = 0#8

end Sys2Proof.Machine
end

