-- ==== Sys2Proof/Certificates/Slice0/Obligations.lean ====
section
/-! DEFINITION. The statements for the provers, from the numbered rules of spec/. A statement about a command that
ends OK gives the whole next state: every field not named in it is unchanged. -/

namespace Sys2Proof.Claims

open Sys2Proof.Machine

/-- RES holds `n` reduced into T: the one integer of T congruent to `n` modulo `2^W`, extended to 64 bits
(R14, R31). -/
def HoldsReduced (t : FxType) (n : Int) (r : Word) : Prop :=
  ∃ v : Int, InRange t v ∧ v ≡ n [ZMOD 2 ^ t.width.bits] ∧ r = BitVec.ofInt 64 v

/-- The state after a command that writes RES and ends OK. -/
def withRes (s : State) (r : Word) : State := { s with res := r, status := 0#8 }

/-- The state after a command that ends with status `e`: STATUS.CODE and one sticky bit (R223). -/
def withFault (s : State) (e : Nat) : State :=
  { s with status := BitVec.ofNat 8 e, faults := s.faults ||| BitVec.ofNat 8 (2 ^ e) }

/-- `real(x)` of a finite binary64 pattern (R15). -/
def real64 (x : Word) : ℚ :=
  let fraction : ℚ := (x.extractLsb' 0 52).toNat / 2 ^ 52
  let e : Int := (x.extractLsb' 52 11).toNat
  (if x.getLsbD 63 then -1 else 1) *
    (if e = 0 then fraction * 2 ^ (-1022 : Int) else (1 + fraction) * 2 ^ (e - 1023))

/-- The exponent field is not all ones (R15). -/
def Finite64 (x : Word) : Prop := x.extractLsb' 52 11 ≠ 0x7FF#11

/-- The real a finite binary32 pattern stands for. -/
def real32 (x : BitVec 32) : ℚ :=
  let fraction : ℚ := (x.extractLsb' 0 23).toNat / 2 ^ 23
  let e : Int := (x.extractLsb' 23 8).toNat
  (if x.getLsbD 31 then -1 else 1) *
    (if e = 0 then fraction * 2 ^ (-126 : Int) else (1 + fraction) * 2 ^ (e - 127))

/-- The exponent field of a binary32 pattern is not all ones. -/
def Finite32 (x : BitVec 32) : Prop := x.extractLsb' 23 8 ≠ 0xFF#8

/-- `y = rne64(v)` (R15): no finite pattern is nearer to `v`, and where another value is equally near, the
significand of `y` is even; zero is +0.0. -/
def IsRne64 (y : Word) (v : ℚ) : Prop :=
  Finite64 y ∧ (v = 0 → y = 0#64) ∧
    ∀ z, Finite64 z → |real64 y - v| ≤ |real64 z - v| ∧
      (|real64 y - v| = |real64 z - v| → real64 z ≠ real64 y → y.getLsbD 0 = false)

/-- `y = rne32(v)` (R15); that zero is +0.0 here too is DEDUCED (log entry 11). -/
def IsRne32 (y : BitVec 32) (v : ℚ) : Prop :=
  Finite32 y ∧ (v = 0 → y = 0#32) ∧
    ∀ z, Finite32 z → |real32 y - v| ≤ |real32 z - v| ∧
      (|real32 y - v| = |real32 z - v| → real32 z ≠ real32 y → y.getLsbD 0 = false)

/-- `n = round_half_away(q)` (R14): the nearest integer, and of two equally near the one farther from zero. -/
def IsRoundHalfAway (n : Int) (q : ℚ) : Prop :=
  |q - n| ≤ 1 / 2 ∧ (|q - n| = 1 / 2 → |q| < |(n : ℚ)|)

/-- The width code of R72. -/
def widthCode : Width → Nat
  | .w8 => 0
  | .w16 => 1
  | .w32 => 2
  | .w64 => 3

/-- The descriptor of T as a number (R73): the width code, the sign bit above it, F above that. -/
def descriptorValue (t : FxType) : Nat := widthCode t.width + (if t.signed then 4 else 0) + 8 * t.frac

/-- "Encoding: U-form, OPC opc": the word, with any operand words, is the command `i`. -/
def UForm (opc : Nat) (a b : Word) (i : Instr) : Prop := decode ⟨BitVec.ofNat 32 opc, a, b⟩ = .ok i

/-- "Encoding: T-form, OPC opc", for a type the descriptor can name. -/
def TForm (opc : Nat) (t : FxType) (a b : Word) (i : Instr) : Prop :=
  t.legal = true → decode ⟨BitVec.ofNat 32 (opc + 2 ^ 6 * descriptorValue t), a, b⟩ = .ok i

/-- "Encoding: C-form, OPC opc". -/
def CForm (opc : Nat) (t t2 : FxType) (a b : Word) (i : Instr) : Prop :=
  t.legal = true → t2.legal = true →
    decode ⟨BitVec.ofNat 32 (opc + 2 ^ 6 * descriptorValue t + 2 ^ 15 * descriptorValue t2), a, b⟩ = .ok i

/-- The source's correction of an angle: M subtracted once when too large, added once when negative (R180). -/
def singleStep (m x : Int) : Int := if m ≤ x then x - m else if x < 0 then x + m else x

/-- What `MemRead` gives for the indices below `n`. -/
def listing (c : Config) (n : Nat) : List (Option Nat) := (List.range n).map (memRead c)

/-- The opcodes whose commands read OPB (R75): FP_ADD to FP_MOD and FP_EQ to FP_GE. -/
def readsOpb (opc : Nat) : Bool := (0x08 ≤ opc && opc ≤ 0x0C) || (0x10 ≤ opc && opc ≤ 0x15)

/-- `t` is a block of configuration `c` right after a reset: of a block with nothing issued, or of a running block
in whatever state (R260). -/
def JustReset (c : Config) (t : State) : Prop :=
  t = State.afterReset c ∨ ∃ s : State, s.config = c ∧ t = s.assertReset

/-- The sixteen commands of 41_fixed_point.md. -/
def isFixedPoint : Instr → Bool
  | .svmSetAngle _ => false
  | .svmMove _ => false
  | .svmUpdate _ _ => false
  | .tblRead _ => false
  | _ => true

/-- SVM_UPDATE. -/
def isUpdate : Instr → Bool
  | .svmUpdate _ _ => true
  | _ => false

/-- SVM_SET_ANGLE and SVM_MOVE, the commands that write ANGLE (R22). -/
def writesAngle : Instr → Bool
  | .svmSetAngle _ => true
  | .svmMove _ => true
  | _ => false

/-- `scale_a` and `scale_b` of a sector angle (R158). -/
def tablePair (c : Config) (s : Nat) : Nat × Nat :=
  (tableEntry c s, tableEntry c (if c.variant = .rom then c.steps - s else c.steps - s - 1))

/-- `(zero, a, b)` of SVM_UPDATE from ANGLE and a raw factor `m` with F fractional bits (R190, R191). -/
def dutyParts (s : State) (m : Int) (frac : Nat) : Int × Int × Int :=
  let pair := tablePair s.config (s.angle.toNat % s.config.steps)
  let a := ⌊(pair.1 * m : ℚ) / 2 ^ frac⌋
  let b := ⌊(pair.2 * m : ℚ) / 2 ^ frac⌋
  (max 0 ⌊(s.config.scaleMax - a - b + 1 : ℚ) / 2⌋, a, b)

/-- The routing table of R192, row by row. -/
def routed (sector : Nat) (zero a b : Int) : Int × Int × Int :=
  if sector = 0 then (zero, zero + b, zero + a + b)
  else if sector = 1 then (zero, zero + a + b, zero + a)
  else if sector = 2 then (zero + b, zero + a + b, zero)
  else if sector = 3 then (zero + a + b, zero + a, zero)
  else if sector = 4 then (zero + a + b, zero, zero + b)
  else (zero + a, zero, zero + a + b)

/-- The three channel values SVM_UPDATE computes (R195). -/
def duties (s : State) (m : Int) (frac : Nat) : Int × Int × Int :=
  let z := dutyParts s m frac
  routed (s.angle.toNat / s.config.steps) z.1 z.2.1 z.2.2

/-- The largest of the three values. -/
def top3 (c : Int × Int × Int) : Int := max c.1 (max c.2.1 c.2.2)

/-- The state after a successful SVM_UPDATE that wrote `c`. -/
def withChannels (s : State) (c : Int × Int × Int) : State :=
  { s with
    chn1 := BitVec.ofInt 32 c.1
    chn2 := BitVec.ofInt 32 c.2.1
    chn3 := BitVec.ofInt 32 c.2.2
    chnValid := true
    status := 0#8 }

/-- The state after ANGLE was written with `v`. -/
def withAngle (s : State) (v : Int) : State := { s with angle := BitVec.ofInt 32 v, status := 0#8 }

end Sys2Proof.Claims

open Sys2Proof Sys2Proof.Machine Sys2Proof.Claims

/-! ## Encoding and decoding -/

/-- R76, R71, R73: one word of every opcode, written out from the spec's encoding. -/
def Obligations.SampleWordsDecode : Prop :=
  decode ⟨0x00000901#32, 0x1FF#64, 0#64⟩ = .ok (.fpFromRaw ⟨.w8, true, 4⟩ 0x1FF#64) ∧
  decode ⟨0x00002188#32, 0x18000#64, 0x8000#64⟩ = .ok (.fpAdd ⟨.w32, true, 16⟩ 0x18000#64 0x8000#64) ∧
  decode ⟨0x0022A18D#32, 0x18000#64, 0#64⟩ =
    .ok (.fpConvert ⟨.w32, true, 16⟩ ⟨.w16, true, 8⟩ 0x18000#64) ∧
  decode ⟨0x00001E62#32, 0x8000#64, 0#64⟩ = .ok (.svmUpdate ⟨.w16, false, 15⟩ 0x8000#64) ∧
  decode ⟨0x00000021#32, 5#64, 0#64⟩ = .ok (.svmMove 5#64) ∧
  decode ⟨0x00000023#32, 1#64, 0#64⟩ = .ok (.tblRead 1#64) ∧
  decode ⟨0x00000000#32, 0#64, 0#64⟩ = .error .reservedOpcode ∧
  decode ⟨0x0000130B#32, 0#64, 0#64⟩ = .error .illegalType

/-- R70, R71, R73, R75, R76: encoding loses nothing; every well-formed instruction with every descriptor and
operand value comes back. -/
def Obligations.DecodeOfEncodeIsIdentity : Prop :=
  ∀ i : Instr, i.wellFormed = true → decode (encode i) = .ok i

/-- R70, R71, R75, R78: a word that decodes is the one encoding of its instruction, and the operands it reads are
the port's: OPB is kept for the opcodes that read it, and is 0 in the encoding of every other (R81). -/
def Obligations.EncodeOfDecodeIsTheWord : Prop :=
  ∀ (c : Command) (i : Instr), decode c = .ok i →
    i.wellFormed = true ∧ (encode i).cmd = c.cmd ∧ (encode i).opa = c.opa ∧
      (encode i).opb = if readsOpb (c.cmd.toNat % 64) then c.opb else 0#64

/-- R77: a word decodes to an opcode exactly when it meets the match and mask of the opcode's form and carries
legal descriptors for it. -/
def Obligations.DecodeMeetsMatchAndMask : Prop :=
  ∀ (w : CmdWord) (op : Opcode),
    (∃ t t2, decodeWord w = .ok (op, t, t2)) ↔
      (match op.form with
        | .untyped => w &&& 0xFFFFFFFF#32 = op.bits.setWidth 32
        | .typed => w &&& 0xFFFF803F#32 = op.bits.setWidth 32 ∧
            (FxType.ofDescriptor (w.extractLsb' 6 9)).legal = true
        | .convert => w &&& 0xFF00003F#32 = op.bits.setWidth 32 ∧
            (FxType.ofDescriptor (w.extractLsb' 6 9)).legal = true ∧
            (FxType.ofDescriptor (w.extractLsb' 15 9)).legal = true)

/-- R79: the reserved opcodes are illegal whatever the other bits; the command ends with ILLEGAL_COMMAND and has no
other effect. -/
def Obligations.ReservedOpcodesAreIllegal : Prop :=
  ∀ (s : State) (c : Command) (rest : List Command), s.config.Legal → s.port = c :: rest →
    (c.cmd.toNat % 64 ∈ [0x00, 0x05, 0x06, 0x07, 0x0E, 0x0F] ∨
      (0x16 ≤ c.cmd.toNat % 64 ∧ c.cmd.toNat % 64 ≤ 0x1F) ∨ 0x24 ≤ c.cmd.toNat % 64) →
    step s = .next (withFault { s with port := rest } 1)

/-- R71, R79: nonzero must-be-zero bits make a command illegal, whatever the opcode and the operands. -/
def Obligations.MustBeZeroBitsAreIllegal : Prop :=
  ∀ (c : Command) (i : Instr), decode c = .ok i →
    c.cmd.toNat < 2 ^ 24 ∧
      ((∀ t t2 a, i ≠ .fpConvert t t2 a) → c.cmd.toNat < 2 ^ 15) ∧
      ((isFixedPoint i = false ∧ isUpdate i = false) → c.cmd.toNat < 2 ^ 6)

/-- R75: bits of OPA and OPB that a command ignores have no effect on it. Operands that agree on the bits their
column names give the same outcome. -/
def Obligations.IgnoredOperandBitsHaveNoEffect : Prop :=
  (∀ (w : CmdWord) (opa b b' : Word) (i i' : Instr),
    decode ⟨w, opa, b⟩ = .ok i → decode ⟨w, opa, b'⟩ = .ok i' →
    (w.toNat % 64 ≤ 0x04 ∨ w.toNat % 64 = 0x0D ∨ 0x20 ≤ w.toNat % 64) → i = i') ∧
  (∀ (t t2 : FxType) (a a' b b' : Word) (s : State),
    a.toNat % 2 ^ t.width.bits = a'.toNat % 2 ^ t.width.bits →
    b.toNat % 2 ^ t.width.bits = b'.toNat % 2 ^ t.width.bits →
    exec (.fpFromRaw t a) s = exec (.fpFromRaw t a') s ∧
    exec (.fpToReal t a) s = exec (.fpToReal t a') s ∧
    exec (.fpToFloat t a) s = exec (.fpToFloat t a') s ∧
    exec (.fpConvert t t2 a) s = exec (.fpConvert t t2 a') s ∧
    exec (.svmUpdate t a) s = exec (.svmUpdate t a') s ∧
    exec (.fpAdd t a b) s = exec (.fpAdd t a' b') s ∧
    exec (.fpSub t a b) s = exec (.fpSub t a' b') s ∧
    exec (.fpMul t a b) s = exec (.fpMul t a' b') s ∧
    exec (.fpDiv t a b) s = exec (.fpDiv t a' b') s ∧
    exec (.fpMod t a b) s = exec (.fpMod t a' b') s ∧
    exec (.fpEq t a b) s = exec (.fpEq t a' b') s ∧
    exec (.fpNe t a b) s = exec (.fpNe t a' b') s ∧
    exec (.fpLt t a b) s = exec (.fpLt t a' b') s ∧
    exec (.fpLe t a b) s = exec (.fpLe t a' b') s ∧
    exec (.fpGt t a b) s = exec (.fpGt t a' b') s ∧
    exec (.fpGe t a b) s = exec (.fpGe t a' b') s) ∧
  (∀ (a a' : Word) (s : State), a.toNat % 2 ^ 32 = a'.toNat % 2 ^ 32 →
    exec (.svmSetAngle a) s = exec (.svmSetAngle a') s ∧
    exec (.svmMove a) s = exec (.svmMove a') s ∧
    exec (.tblRead a) s = exec (.tblRead a') s)

/-! ## Steps -/

/-- R20, R21: a step of an admitted block whose next command decodes runs that instruction on the state in which
the command has been taken from the port. -/
def Obligations.StepRunsTheDecodedCommand : Prop :=
  ∀ (s : State) (c : Command) (rest : List Command) (i : Instr), s.config.Legal → s.port = c :: rest →
    decode c = .ok i → step s = exec i { s with port := rest }

/-- R78, R223, R226: a command that fails a decode check ends with ILLEGAL_COMMAND and changes nothing but STATUS
and FAULTS, whatever its operands are. -/
def Obligations.IllegalCommandOnlySetsStatusAndFaults : Prop :=
  ∀ (s : State) (c : Command) (rest : List Command) (e : Illegal), s.config.Legal → s.port = c :: rest →
    decode c = .error e → step s = .next (withFault { s with port := rest } 1)

/-- R236: an idle block keeps its whole state. -/
def Obligations.IdleBlockKeepsItsState : Prop :=
  ∀ s : State, s.config.Legal → s.port = [] → step s = .next s

/-- R58: commands take effect in the order accepted and see nothing of the commands after them: running the first
commands of a longer list gives what running them alone gives, and leaves the rest. -/
def Obligations.CommandsTakeEffectInOrder : Prop :=
  ∀ (first later : List Command) (s t : State), s.config.Legal →
    Sys2Proof.core.run first.length { s with port := first } = .next t →
    t.port = [] ∧
      Sys2Proof.core.run first.length { s with port := first ++ later } = .next { t with port := later }

/-- R260: every register after a reset of an admitted block, whatever its state was before (FAULTS is cleared, R225);
the parameters, and with them CONFIG and the table store, are not affected. -/
def Obligations.ResetValues : Prop :=
  ∀ (c : Config) (t : State), c.Legal → JustReset c t →
    t.hostRead .angle = some 0#64 ∧
    t.hostRead .sector = some 0#64 ∧
    t.hostRead .sectorAngle = some 0#64 ∧
    (c.outReset = .zero →
      t.hostRead .chn1 = some 0#64 ∧ t.hostRead .chn2 = some 0#64 ∧ t.hostRead .chn3 = some 0#64) ∧
    (c.outReset = .undefined →
      t.hostRead .chn1 = none ∧ t.hostRead .chn2 = none ∧ t.hostRead .chn3 = none) ∧
    t.hostRead .res = some 0#64 ∧
    t.hostRead .status = some 0#64 ∧
    t.hostRead .faults = some 0#64 ∧
    t.hostRead .config = some ((configWord c).setWidth 64) ∧
    t.config = c

/-- R29: after a reset the channels are 0 with `OUT_RESET = ZERO` and hold no value with `UNDEFINED`; they get a value
exactly by an SVM_UPDATE that ends OK and never lose it, and while they hold none a read of them gives no value. -/
def Obligations.ChannelsHoldNoValueUntilUpdate : Prop :=
  (∀ (c : Config) (t : State), JustReset c t →
    (c.outReset = .zero → t.hostRead .chn1 = some 0#64 ∧ t.hostRead .chn2 = some 0#64 ∧
      t.hostRead .chn3 = some 0#64) ∧
    (c.outReset = .undefined → t.chnValid = false)) ∧
  (∀ (r : HostRegister) (s : State), s.hostRead r = none ↔
    s.chnValid = false ∧ (r = .chn1 ∨ r = .chn2 ∨ r = .chn3)) ∧
  (∀ (i : Instr) (s t : State), exec i s = .next t →
    (t.chnValid = true ↔ s.chnValid = true ∨ (isUpdate i = true ∧ t.code = 0)))

/-- The invariant holds after a reset of every admitted block, whatever its state was before. -/
def Obligations.ResetMeetsInvariant : Prop :=
  ∀ (c : Config) (t : State), c.Legal → JustReset c t → t.Inv

/-- R23, R32, R33, R220: every step keeps the invariant: ANGLE in `[0, M)`, a produced status code, reserved bits
zero, the last fault recorded. -/
def Obligations.EveryStepKeepsInvariant : Prop :=
  ∀ s t : State, s.Inv → step s = .next t → t.Inv

/-- R220 and 93: every command of every admitted block completes; with the invariant no step stops. -/
def Obligations.EveryStepCompletes : Prop :=
  ∀ s : State, s.Inv → ∃ t : State, step s = .next t

/-! ## Faults -/

/-- R223, R33, R40: a command, legal or not, that ends with a status other than OK writes that code and its sticky bit
and nothing else; one that ends OK leaves FAULTS as it was. That the command leaves the port is the model's choice
(log entry 2). -/
def Obligations.FaultsArePrecise : Prop :=
  ∀ (s t : State) (c : Command) (rest : List Command), s.port = c :: rest → step s = .next t →
    (t.code ≠ 0 → t = withFault { s with port := rest } t.code) ∧ (t.code = 0 → t.faults = s.faults)

/-- R33, R225: a FAULTS bit once set stays set: no step clears one. -/
def Obligations.FaultsAreSticky : Prop :=
  ∀ (s t : State) (k : Nat), step s = .next t → s.faults.getLsbD k = true → t.faults.getLsbD k = true

/-- R225: `FAULTS = 0` at the end of a run says that no command of the run faulted: every state on the way was
reached, with status OK and FAULTS zero. -/
def Obligations.FaultFreeEndMeansNoCommandFaulted : Prop :=
  ∀ (n : Nat) (s t : State), s.Inv → Sys2Proof.core.run n s = .next t → t.faults = 0#8 →
    ∀ m, m ≤ n → ∃ u : State, Sys2Proof.core.run m s = .next u ∧ u.faults = 0#8 ∧ u.code = 0

/-- R8, R35: no step changes a parameter of the block, nor any table entry. -/
def Obligations.ConfigurationIsConstant : Prop :=
  ∀ s t : State, step s = .next t →
    t.config = s.config ∧ ∀ k, memRead t.config k = memRead s.config k

/-! ## Which command writes which state (R40) -/

/-- R22: ANGLE is written only by SVM_SET_ANGLE and SVM_MOVE. -/
def Obligations.OnlyAngleCommandsWriteAngle : Prop :=
  ∀ (i : Instr) (s t : State), writesAngle i = false → exec i s = .next t → t.angle = s.angle

/-- R28: the channels are written only by a successful SVM_UPDATE. -/
def Obligations.OnlySuccessfulUpdateWritesChannels : Prop :=
  ∀ (i : Instr) (s t : State), exec i s = .next t → ¬ (isUpdate i = true ∧ t.code = 0) →
    t.chn1 = s.chn1 ∧ t.chn2 = s.chn2 ∧ t.chn3 = s.chn3

/-- R31: the SVM commands and every faulting command leave RES unchanged. -/
def Obligations.SvmAndFaultingCommandsKeepRes : Prop :=
  ∀ (i : Instr) (s t : State), exec i s = .next t →
    (t.code ≠ 0 ∨ writesAngle i = true ∨ isUpdate i = true) → t.res = s.res

/-- R140: a FixedPoint command completes in every state, changes at most RES, STATUS and FAULTS, and what it does
to them depends on its operands and types alone. -/
def Obligations.FixedPointDependsOnOperandsOnly : Prop :=
  ∀ (i : Instr) (s s' : State), isFixedPoint i = true →
    ∃ t t' : State, exec i s = .next t ∧ exec i s' = .next t' ∧
      t = { s with res := t.res, status := t.status, faults := t.faults } ∧
      t.status = t'.status ∧ (t.code = 0 → t.res = t'.res)

/-! ## Operands (R14, R73) -/

/-- R14: `val_T` is the integer of T congruent to the pattern modulo `2^W`; each extension of `out_T` reads back. -/
def Obligations.OperandReadingFollowsType : Prop :=
  ∀ (t : FxType) (x : Word),
    InRange t (valT t x) ∧ valT t x ≡ x.toNat [ZMOD 2 ^ t.width.bits] ∧
      ∀ v, InRange t v → valT t (outT t v) = v

/-- R72, R73: a 9-bit descriptor read as `(W, S, F)`: W is 8, 16, 32 or 64 by the width code; with its legality. -/
def Obligations.DescriptorReadsWidthSignFraction : Prop :=
  ∀ d : BitVec 9,
    (FxType.ofDescriptor d).width.bits = 8 <<< (d.toNat % 4) ∧
    ((FxType.ofDescriptor d).signed = true ↔ d.toNat / 4 % 2 = 1) ∧
    (FxType.ofDescriptor d).frac = d.toNat / 8 ∧
    ((FxType.ofDescriptor d).legal = true ↔ d.toNat / 8 ≤ min (8 <<< (d.toNat % 4)) 63)

/-! ## FixedPoint commands -/

/-- R100: FP_FROM_RAW takes the low W bits as they are. -/
def Obligations.FromRawTakesLowBits : Prop :=
  ∀ (t : FxType) (a b : Word) (s : State), TForm 0x01 t a b (.fpFromRaw t a) ∧
    ∃ r : Word, HoldsReduced t a.toNat r ∧ exec (.fpFromRaw t a) s = .next (withRes s r)

/-- R102, R103, R104: FP_FROM_REAL rounds the exact real to the nearest raw, halves away from zero, and reduces it
into T; a NaN or an infinity raises INVALID_OPERAND (code 3). -/
def Obligations.FromRealRoundsHalfAway : Prop :=
  ∀ (t : FxType) (a b : Word) (s : State), TForm 0x02 t a b (.fpFromReal t a) ∧
    (Finite64 a → ∃ (n : Int) (r : Word),
      IsRoundHalfAway n (real64 a * 2 ^ t.frac) ∧ HoldsReduced t n r ∧
        exec (.fpFromReal t a) s = .next (withRes s r)) ∧
    (¬ Finite64 a → exec (.fpFromReal t a) s = .next (withFault s 3))

/-- R105: FP_TO_REAL gives the binary64 nearest the exact value, ties to even; exact below `2^53`. -/
def Obligations.ToRealIsNearestEven : Prop :=
  ∀ (t : FxType) (a b : Word) (s : State), t.legal = true → TForm 0x03 t a b (.fpToReal t a) ∧
    ∃ r : Word, IsRne64 r (valT t a / 2 ^ t.frac : ℚ) ∧
      (|valT t a| < 2 ^ 53 → real64 r = (valT t a / 2 ^ t.frac : ℚ)) ∧
      exec (.fpToReal t a) s = .next (withRes s r)

/-- R107: FP_TO_FLOAT gives the binary32 nearest the exact value, ties to even, in RES[31:0]; exact below `2^24`.
That raw 0 gives +0.0 is DEDUCED (log entry 11). -/
def Obligations.ToFloatIsNearestEven : Prop :=
  ∀ (t : FxType) (a b : Word) (s : State), t.legal = true → TForm 0x04 t a b (.fpToFloat t a) ∧
    ∃ y : BitVec 32, IsRne32 y (valT t a / 2 ^ t.frac : ℚ) ∧
      (|valT t a| < 2 ^ 24 → real32 y = (valT t a / 2 ^ t.frac : ℚ)) ∧
      exec (.fpToFloat t a) s = .next (withRes s (y.setWidth 64))

/-- R110, R111, R112: FP_ADD and FP_SUB give the raw sum and difference reduced to W bits, without rounding. -/
def Obligations.AddAndSubWrap : Prop :=
  ∀ (t : FxType) (a b : Word) (s : State),
    (TForm 0x08 t a b (.fpAdd t a b) ∧
      ∃ r, HoldsReduced t (valT t a + valT t b) r ∧ exec (.fpAdd t a b) s = .next (withRes s r)) ∧
    (TForm 0x09 t a b (.fpSub t a b) ∧
      ∃ r, HoldsReduced t (valT t a - valT t b) r ∧ exec (.fpSub t a b) s = .next (withRes s r))

/-- R114, R115, R116: FP_MUL floors the exact product shifted by F, for every sign combination, then reduces it. -/
def Obligations.MulFloorsExactProduct : Prop :=
  ∀ (t : FxType) (a b : Word) (s : State), TForm 0x0A t a b (.fpMul t a b) ∧
    ∃ r, HoldsReduced t ⌊(valT t a * valT t b : ℚ) / 2 ^ t.frac⌋ r ∧
      exec (.fpMul t a b) s = .next (withRes s r)

/-- R117, R119: FP_DIV rounds the exact quotient toward zero, then reduces it: the remainder is smaller than the
divisor and does not oppose the dividend's sign. A zero divisor raises DIVISION_BY_ZERO (code 2). -/
def Obligations.DivTruncatesExactQuotient : Prop :=
  ∀ (t : FxType) (a b : Word) (s : State), TForm 0x0B t a b (.fpDiv t a b) ∧
    (valT t b = 0 → exec (.fpDiv t a b) s = .next (withFault s 2)) ∧
    (valT t b ≠ 0 → ∃ (q : Int) (r : Word),
      |valT t a * 2 ^ t.frac - q * valT t b| < |valT t b| ∧
        0 ≤ (valT t a * 2 ^ t.frac - q * valT t b) * valT t a ∧
        HoldsReduced t q r ∧ exec (.fpDiv t a b) s = .next (withRes s r))

/-- R120, R121: FP_MOD gives the remainder with the dividend's sign, which fits T; a zero divisor raises
DIVISION_BY_ZERO (code 2). -/
def Obligations.ModHasDividendsSign : Prop :=
  ∀ (t : FxType) (a b : Word) (s : State), TForm 0x0C t a b (.fpMod t a b) ∧
    (valT t b = 0 → exec (.fpMod t a b) s = .next (withFault s 2)) ∧
    (valT t b ≠ 0 → ∃ q m : Int,
      valT t a = q * valT t b + m ∧ |m| < |valT t b| ∧ 0 ≤ m * valT t a ∧ InRange t m ∧
        exec (.fpMod t a b) s = .next (withRes s (BitVec.ofInt 64 m)))

/-- R124, R125, R126: FP_CONVERT shifts exactly to the left or floors to the right, then wraps into T2; it never
saturates and never signals. -/
def Obligations.ConvertShiftsAndWraps : Prop :=
  ∀ (t t2 : FxType) (a b : Word) (s : State), CForm 0x0D t t2 a b (.fpConvert t t2 a) ∧
    ∃ r, HoldsReduced t2 ⌊(valT t a : ℚ) * 2 ^ t2.frac / 2 ^ t.frac⌋ r ∧
      exec (.fpConvert t t2 a) s = .next (withRes s r)

/-- R130, R131 and R132 to R137: the six comparisons of the integers `val_T(OPA)` and `val_T(OPB)`. -/
def Obligations.ComparisonsWriteTruthValues : Prop :=
  ∀ (t : FxType) (a b : Word) (s : State),
    (TForm 0x10 t a b (.fpEq t a b) ∧
      ∃ r, (r = 1#64 ∧ valT t a = valT t b ∨ r = 0#64 ∧ valT t a ≠ valT t b) ∧
        exec (.fpEq t a b) s = .next (withRes s r)) ∧
    (TForm 0x11 t a b (.fpNe t a b) ∧
      ∃ r, (r = 1#64 ∧ valT t a ≠ valT t b ∨ r = 0#64 ∧ valT t a = valT t b) ∧
        exec (.fpNe t a b) s = .next (withRes s r)) ∧
    (TForm 0x12 t a b (.fpLt t a b) ∧
      ∃ r, (r = 1#64 ∧ valT t a < valT t b ∨ r = 0#64 ∧ ¬ valT t a < valT t b) ∧
        exec (.fpLt t a b) s = .next (withRes s r)) ∧
    (TForm 0x13 t a b (.fpLe t a b) ∧
      ∃ r, (r = 1#64 ∧ valT t a ≤ valT t b ∨ r = 0#64 ∧ ¬ valT t a ≤ valT t b) ∧
        exec (.fpLe t a b) s = .next (withRes s r)) ∧
    (TForm 0x14 t a b (.fpGt t a b) ∧
      ∃ r, (r = 1#64 ∧ valT t a > valT t b ∨ r = 0#64 ∧ ¬ valT t a > valT t b) ∧
        exec (.fpGt t a b) s = .next (withRes s r)) ∧
    (TForm 0x15 t a b (.fpGe t a b) ∧
      ∃ r, (r = 1#64 ∧ valT t a ≥ valT t b ∨ r = 0#64 ∧ ¬ valT t a ≥ valT t b) ∧
        exec (.fpGe t a b) s = .next (withRes s r))

/-- R141: FP_FROM_REAL and then FP_TO_REAL give back a value within `2^-F / 2`, when the rounded raw lies in T and
is below `2^53`. -/
def Obligations.RealRoundTripWithinHalfPrecision : Prop :=
  ∀ (t : FxType) (x : Word) (n : Int) (s : State), t.legal = true → Finite64 x →
    IsRoundHalfAway n (real64 x * 2 ^ t.frac) → InRange t n → |n| < 2 ^ 53 →
    ∃ t1 t2 : State, exec (.fpFromReal t x) s = .next t1 ∧ exec (.fpToReal t t1.res) t1 = .next t2 ∧
      |real64 t2.res - real64 x| ≤ 1 / 2 ^ t.frac / 2

/-! ## The sector table -/

/-- R150, R151, R152: the indices of the variant, and no others, have an entry, and each is
`SCALE_MAX * sin(60° - i * 60° / 2^P)`, with the exact real sine, rounded to the nearest integer, an exact half as
TABLE_TIE says. -/
def Obligations.TableEntryIsRoundedSine : Prop :=
  ∀ (c : Config) (i : Nat), c.Legal →
    (i < (if c.variant = .rom then 2 ^ c.precision + 1 else 2 ^ c.precision) → ∃ e : Nat, memRead c i = some e ∧
      (|(e : ℝ) - c.scaleMax * Real.sin (Real.pi / 3 - i * (Real.pi / 3) / 2 ^ c.precision)| < 1 / 2 ∨
        ((e : ℝ) = c.scaleMax * Real.sin (Real.pi / 3 - i * (Real.pi / 3) / 2 ^ c.precision) - 1 / 2 ∧
          c.tie = .halfDown) ∨
        ((e : ℝ) = c.scaleMax * Real.sin (Real.pi / 3 - i * (Real.pi / 3) / 2 ^ c.precision) + 1 / 2 ∧
          c.tie = .halfUp))) ∧
    ((if c.variant = .rom then 2 ^ c.precision + 1 else 2 ^ c.precision) ≤ i → memRead c i = none)

/-- R152: the value to round is exactly halfway between two integers only for the 30 degree entry and odd SCALE_MAX;
there TABLE_TIE chooses between the halves of `SCALE_MAX - 1` and `SCALE_MAX + 1`, and nowhere else does it matter. -/
def Obligations.TieOnlyAtThirtyDegrees : Prop :=
  ∀ (c : Config) (i : Nat), c.Legal → i ≤ 2 ^ c.precision →
    ((∃ n : Int, c.scaleMax * Real.sin (Real.pi / 3 - i * (Real.pi / 3) / 2 ^ c.precision) = (n : ℝ) + 1 / 2) ↔
      i = 2 ^ c.precision / 2 ∧ c.scaleMax % 2 = 1) ∧
    (i = 2 ^ c.precision / 2 ∧ c.scaleMax % 2 = 1 →
      tableEntry { c with tie := .halfDown } i = (c.scaleMax - 1) / 2 ∧
        tableEntry { c with tie := .halfUp } i = (c.scaleMax + 1) / 2) ∧
    (¬ (i = 2 ^ c.precision / 2 ∧ c.scaleMax % 2 = 1) →
      tableEntry { c with tie := .halfDown } i = tableEntry { c with tie := .halfUp } i)

/-- R153: the RAM table is the first N entries of the ROM table, and the ROM table's one further entry is 0. -/
def Obligations.RamTableIsRomTableWithoutLastEntry : Prop :=
  ∀ c : Config, c.Legal →
    (∀ i, i < c.steps → memRead { c with variant := .ram } i = memRead { c with variant := .rom } i) ∧
    memRead { c with variant := .rom } c.steps = some 0 ∧
    memRead { c with variant := .ram } c.steps = none ∧
    (∀ i, c.steps < i → memRead { c with variant := .rom } i = none)

/-- R154: every entry is in `[0, SCALE_MAX]`, the entries are non-increasing, and the first is
`round(SCALE_MAX * sin 60°)`. -/
def Obligations.TableIsBoundedAndNonIncreasing : Prop :=
  ∀ c : Config, c.Legal →
    (∀ i e, memRead c i = some e → e ≤ c.scaleMax ∧ e < 2 ^ 16) ∧
    (∀ i j e f, i ≤ j → memRead c i = some e → memRead c j = some f → f ≤ e) ∧
    ∃ e : Nat, memRead c 0 = some e ∧ |(e : ℝ) - c.scaleMax * Real.sin (Real.pi / 3)| < 1 / 2

/-- R162: the reference contents; the RAM table is the same list without its last entry. -/
def Obligations.ReferenceTablesOfR162 : Prop :=
  listing ⟨1, 1000, .rom, .halfDown, .zero⟩ 4 = [some 866, some 500, some 0, none] ∧
  listing ⟨2, 1000, .rom, .halfDown, .zero⟩ 6 = [some 866, some 707, some 500, some 259, some 0, none] ∧
  listing ⟨3, 1000, .rom, .halfDown, .zero⟩ 10 =
    [some 866, some 793, some 707, some 609, some 500, some 383, some 259, some 131, some 0, none] ∧
  listing ⟨2, 1001, .rom, .halfDown, .zero⟩ 6 = [some 867, some 708, some 500, some 259, some 0, none] ∧
  listing ⟨2, 1001, .rom, .halfUp, .zero⟩ 6 = [some 867, some 708, some 501, some 259, some 0, none] ∧
  listing ⟨2, 65535, .rom, .halfDown, .zero⟩ 6 =
    [some 56755, some 46340, some 32767, some 16962, some 0, none] ∧
  listing ⟨2, 65535, .rom, .halfUp, .zero⟩ 6 =
    [some 56755, some 46340, some 32768, some 16962, some 0, none] ∧
  listing ⟨1, 1000, .ram, .halfDown, .zero⟩ 3 = [some 866, some 500, none] ∧
  listing ⟨2, 1000, .ram, .halfDown, .zero⟩ 5 = [some 866, some 707, some 500, some 259, none] ∧
  listing ⟨3, 1000, .ram, .halfDown, .zero⟩ 9 =
    [some 866, some 793, some 707, some 609, some 500, some 383, some 259, some 131, none] ∧
  listing ⟨2, 1001, .ram, .halfUp, .zero⟩ 5 = [some 867, some 708, some 501, some 259, none] ∧
  listing ⟨2, 65535, .ram, .halfDown, .zero⟩ 5 = [some 56755, some 46340, some 32767, some 16962, none]

/-- R160: TBL_READ of an index inside the table writes the entry to RES; outside it raises INDEX_OUT_OF_RANGE
(code 4). -/
def Obligations.TableReadInsideAndOutside : Prop :=
  ∀ (a b : Word) (s : State), UForm 0x23 a b (.tblRead a) ∧
    (a.toNat % 2 ^ 32 < (if s.config.variant = .rom then 2 ^ s.config.precision + 1 else 2 ^ s.config.precision) →
      ∃ e, memRead s.config (a.toNat % 2 ^ 32) = some e ∧
        exec (.tblRead a) s = .next (withRes s (BitVec.ofNat 64 e))) ∧
    ((if s.config.variant = .rom then 2 ^ s.config.precision + 1 else 2 ^ s.config.precision) ≤ a.toNat % 2 ^ 32 →
      exec (.tblRead a) s = .next (withFault s 4))

/-- R158, R159: both indices of an update's lookup are in range, and the lookup reads those two entries. -/
def Obligations.SymmetricLookupIsInRange : Prop :=
  ∀ (c : Config) (s : Nat), s < c.steps → ∃ a b,
    memRead c s = some a ∧
    memRead c (if c.variant = .rom then c.steps - s else c.steps - s - 1) = some b ∧
    lookup c s = some (a, b)

/-! ## The angle tracker -/

/-- R181, R180: SVM_SET_ANGLE writes the Euclidean remainder of the angle by M. -/
def Obligations.SetAngleReducesFully : Prop :=
  ∀ (a b : Word) (s : State), s.config.Legal → UForm 0x20 a b (.svmSetAngle a) ∧ ∃ v : Int,
    0 ≤ v ∧ v < 6 * 2 ^ s.config.precision ∧
      v ≡ (a.setWidth 32).toInt [ZMOD 6 * 2 ^ s.config.precision] ∧
      exec (.svmSetAngle a) s = .next (withAngle s v) ∧ (withAngle s v).angle.toInt = v

/-- R183, R180: SVM_MOVE writes the Euclidean remainder of the exact sum by M. -/
def Obligations.MoveReducesExactSum : Prop :=
  ∀ (d b : Word) (s : State), s.config.Legal → UForm 0x21 d b (.svmMove d) ∧ ∃ v : Int,
    0 ≤ v ∧ v < 6 * 2 ^ s.config.precision ∧
      v ≡ s.angle.toInt + (d.setWidth 32).toInt [ZMOD 6 * 2 ^ s.config.precision] ∧
      exec (.svmMove d) s = .next (withAngle s v) ∧ (withAngle s v).angle.toInt = v

/-- R182, R184: for an angle in `[-M, 2M)`, and for a delta of magnitude at most M, the result is the source's
single-step correction; outside `[-M, 2M)` that correction leaves `[0, M)`. -/
def Obligations.SingleStepCorrectionAgrees : Prop :=
  ∀ (a : Word) (s : State) (m v : Int), s.Inv → m = 6 * 2 ^ s.config.precision → v = (a.setWidth 32).toInt →
    (-m ≤ v → v < 2 * m → exec (.svmSetAngle a) s = .next (withAngle s (singleStep m v))) ∧
    (|v| ≤ m → -m ≤ s.angle.toInt + v ∧ s.angle.toInt + v < 2 * m ∧
      exec (.svmMove a) s = .next (withAngle s (singleStep m (s.angle.toInt + v)))) ∧
    (v < -m ∨ 2 * m ≤ v → ¬ (0 ≤ singleStep m v ∧ singleStep m v < m))

/-- R185: from ANGLE 0, `k` commands `move(+1)` give ANGLE `k mod M` and SECTOR `floor((k mod M) / 2^P)`; `k` commands
`move(-1)` give ANGLE `emod(-k, M)`, the same progression in reverse: the first goes to sector 5, SECTOR_ANGLE
`2^P - 1`. The commands stand on the model's own port (log entry 2). -/
def Obligations.SectorProgression : Prop :=
  ∀ (k : Nat) (s : State), s.config.Legal → s.angle = 0#32 →
    (∃ t : State,
      Sys2Proof.core.run k { s with port := List.replicate k ⟨0x21#32, 1#64, 0#64⟩ } = .next t ∧
      t.angle.toInt = k % (6 * 2 ^ s.config.precision) ∧
      t.sector.toNat = k % (6 * 2 ^ s.config.precision) / 2 ^ s.config.precision) ∧
    (∃ t : State,
      Sys2Proof.core.run k { s with port := List.replicate k ⟨0x21#32, BitVec.ofInt 64 (-1), 0#64⟩ } = .next t ∧
      t.angle.toInt = (-(k : Int)) % (6 * 2 ^ s.config.precision) ∧
      (t.sector.toNat : Int) = (-(k : Int)) % (6 * 2 ^ s.config.precision) / 2 ^ s.config.precision ∧
      (k = 1 → t.sector.toNat = 5 ∧ t.sectorAngle.toNat = 2 ^ s.config.precision - 1))

/-- R24, R25, R26: SECTOR and SECTOR_ANGLE are the fields `ANGLE[P+2:P]` and `ANGLE[P-1:0]`, the second read
zero-extended; with the invariant SECTOR is 0 to 5 and ANGLE is made of the two. -/
def Obligations.AngleIsSectorAndSectorAngle : Prop :=
  ∀ s : State, s.Inv →
    s.sector.toNat = s.angle.toNat / 2 ^ s.config.precision % 8 ∧ s.sector.toNat ≤ 5 ∧
      s.sectorAngle.toNat = s.angle.toNat % 2 ^ s.config.precision ∧
      s.hostRead .sectorAngle = some (BitVec.ofNat 64 (s.angle.toNat % 2 ^ s.config.precision)) ∧
      s.angle.toNat = s.sector.toNat * 2 ^ s.config.precision + s.sectorAngle.toNat

/-- R195, with R187, R188, R190, R191, R192: a negative factor raises MODULATION_RANGE (code 5); any other factor,
above 1.0 too, writes the three routed channel values when each fits 32 bits, and raises MODULATION_RANGE when one does
not. -/
def Obligations.UpdateWritesRoutedChannels : Prop :=
  ∀ (t : FxType) (a b : Word) (s : State), TForm 0x22 t a b (.svmUpdate t a) ∧
    (valT t a < 0 → exec (.svmUpdate t a) s = .next (withFault s 5)) ∧
    (s.Inv → 0 ≤ valT t a → top3 (duties s (valT t a) t.frac) ≤ 2 ^ 32 - 1 →
      exec (.svmUpdate t a) s = .next (withChannels s (duties s (valT t a) t.frac))) ∧
    (s.Inv → 0 ≤ valT t a → 2 ^ 32 - 1 < top3 (duties s (valT t a) t.frac) →
      exec (.svmUpdate t a) s = .next (withFault s 5))

/-- R197: for a factor in `[0, 1.0]` SVM_UPDATE ends OK, whatever the angle and the table. -/
def Obligations.NominalFactorNeverFaults : Prop :=
  ∀ (t : FxType) (a : Word) (s : State), s.Inv → 0 ≤ valT t a → valT t a ≤ 2 ^ t.frac →
    exec (.svmUpdate t a) s = .next (withChannels s (duties s (valT t a) t.frac))

/-- R30, R193: for ROM, HALF_DOWN and a factor in `[0, 1.0]`, every channel written is in `[0, SCALE_MAX]`. -/
def Obligations.RomChannelsStayWithinScaleMax : Prop :=
  ∀ (t : FxType) (a : Word) (s : State), s.Inv → s.config.variant = .rom → s.config.tie = .halfDown →
    0 ≤ valT t a → valT t a ≤ 2 ^ t.frac →
    ∃ u : State, exec (.svmUpdate t a) s = .next u ∧ u.code = 0 ∧
      u.chn1.toNat ≤ s.config.scaleMax ∧ u.chn2.toNat ≤ s.config.scaleMax ∧ u.chn3.toNat ≤ s.config.scaleMax

/-- R194: when `a + b` exceeds SCALE_MAX the zero value is clamped to 0 rather than negative, and the update still ends
OK with FAULTS unchanged; the smallest channel is then 0. -/
def Obligations.OverModulationClampsToZero : Prop :=
  ∀ (t : FxType) (m : Int) (x : Word) (s : State) (z a b : Int), s.Inv → m = valT t x → 0 ≤ m →
    (z, a, b) = dutyParts s m t.frac → s.config.scaleMax < a + b → a + b ≤ 2 ^ 32 - 1 →
    z = 0 ∧ ∃ u : State, exec (.svmUpdate t x) s = .next u ∧ u.code = 0 ∧ u.faults = s.faults ∧
      min u.chn1.toNat (min u.chn2.toNat u.chn3.toNat) = 0

/-- R195: the same update twice with no command between gives the same channels. -/
def Obligations.UpdateIsIdempotent : Prop :=
  ∀ (t : FxType) (a : Word) (s u : State), exec (.svmUpdate t a) s = .next u → u.code = 0 →
    exec (.svmUpdate t a) u = .next u

/-- R196, R268: SVM_UPDATE does not write ANGLE, and SVM_SET_ANGLE and SVM_MOVE do not recompute the channels: after a
change of ANGLE the channels still are those of the old angle. -/
def Obligations.AngleChangeLeavesChannelsStale : Prop :=
  ∀ (t : FxType) (a d : Word) (s u : State), s.Inv → exec (.svmUpdate t a) s = .next u →
    u.angle = s.angle ∧
    (∃ v : State, exec (.svmMove d) u = .next v ∧
      v.chn1 = u.chn1 ∧ v.chn2 = u.chn2 ∧ v.chn3 = u.chn3 ∧ v.chnValid = u.chnValid) ∧
    ∃ v : State, exec (.svmSetAngle d) u = .next v ∧
      v.chn1 = u.chn1 ∧ v.chn2 = u.chn2 ∧ v.chn3 = u.chn3 ∧ v.chnValid = u.chnValid

/-! ## The host interface -/

/-- R34: the fields of CONFIG, which no step changes. -/
def Obligations.ConfigRegisterFields : Prop :=
  ∀ s : State, s.config.Legal → ∃ v : Word, s.hostRead .config = some v ∧
    v.toNat = s.config.precision + (if s.config.variant = .ram then 2 ^ 5 else 0) +
      (if s.config.tie = .halfUp then 2 ^ 6 else 0) + (if s.config.outReset = .undefined then 2 ^ 7 else 0) +
      7 * 2 ^ 8 + s.config.scaleMax * 2 ^ 16 ∧
    ∀ t : State, step s = .next t → t.hostRead .config = some v

/-- R53: on a byte-addressed host bus each register is little-endian, its bits 7:0 at the lowest byte address. -/
def Obligations.RegistersAreLittleEndian : Prop :=
  ∀ (s : State) (r : HostRegister) (bytes : List Byte), s.hostReadBytes r = some bytes →
    ∃ v, s.hostRead r = some v ∧ bytes.length = r.byteCount ∧
      v.toNat = Nat.ofDigits 256 (bytes.map BitVec.toNat)

/-- R82: each pseudo-instruction, on an example, assembles to the command words of its expansion, and the expansion's
own text assembles to the same words; R81's example assembles to its three words. -/
def Obligations.PseudoInstructionsExpand : Prop :=
  assemble "svm.reset_angle" = some [⟨0x00000020#32, 0#64, 0#64⟩] ∧
  assemble "svm.set_angle 0" = some [⟨0x00000020#32, 0#64, 0#64⟩] ∧
  assemble "svm.step" = some [⟨0x00000021#32, 1#64, 0#64⟩] ∧
  assemble "svm.move 1" = some [⟨0x00000021#32, 1#64, 0#64⟩] ∧
  assemble "svm.back" = some [⟨0x00000021#32, 0xFFFFFFFFFFFFFFFF#64, 0#64⟩] ∧
  assemble "svm.move -1" = some [⟨0x00000021#32, 0xFFFFFFFFFFFFFFFF#64, 0#64⟩] ∧
  assemble "svm.tick.u16q15 -6, 0x8000" =
    some [⟨0x00000021#32, 0xFFFFFFFFFFFFFFFA#64, 0#64⟩, ⟨0x00001E62#32, 0x8000#64, 0#64⟩] ∧
  assemble "svm.move -6\nsvm.update.u16q15 0x8000" =
    some [⟨0x00000021#32, 0xFFFFFFFFFFFFFFFA#64, 0#64⟩, ⟨0x00001E62#32, 0x8000#64, 0#64⟩] ∧
  assemble "fp.neg.s16q8 5" = some [⟨0x00001149#32, 0#64, 5#64⟩] ∧
  assemble "fp.sub.s16q8 0, 5" = some [⟨0x00001149#32, 0#64, 5#64⟩] ∧
  assemble "fp.int.s16q8 -3" = some [⟨0x00001141#32, 0xFFFFFFFFFFFFFD00#64, 0#64⟩] ∧
  assemble "fp.from_raw.s16q8 -768" = some [⟨0x00001141#32, 0xFFFFFFFFFFFFFD00#64, 0#64⟩] ∧
  assemble "fp.one.s32q16" = some [⟨0x00002181#32, 0x10000#64, 0#64⟩] ∧
  assemble "fp.from_raw.s32q16 0x10000" = some [⟨0x00002181#32, 0x10000#64, 0#64⟩] ∧
  assemble "fp.add.s32q16 0x18000, 0x8000 ; 1.5 + 0.5" =
    some [⟨0x00002188#32, 0x18000#64, 0x8000#64⟩]
end

