-- ==== Sys2Proof/Laws/Decode.lean ====
section
/-! SUPPORT. The fields of an encoded command word, and what decoding them gives back. -/

namespace Sys2Proof

@[simp] theorem Opcode.ofBits_bits (op : Opcode) : Opcode.ofBits op.bits = some op := by cases op <;> rfl

@[simp] theorem Width.ofCode_code (w : Width) : Width.ofCode w.code = w := by cases w <;> rfl

/-- Reserved opcodes are exactly those no operation has (R79). -/
theorem Opcode.ofBits_eq_some {b : BitVec 6} {op : Opcode} (h : Opcode.ofBits b = some op) : op.bits = b := by
  revert h; revert op; revert b; decide

/-- The fields of a command word are what it was made of (R71). -/
theorem cmdWord_opcode (op : Opcode) (d2 d : BitVec 9) : (cmdWord op d2 d).extractLsb' 0 6 = op.bits := by
  unfold cmdWord
  ext i hi
  simp only [BitVec.getElem_extractLsb', BitVec.getLsbD_append]
  rw [if_pos (by omega)]
  simp [BitVec.getLsbD_eq_getElem, hi]

theorem cmdWord_type (op : Opcode) (d2 d : BitVec 9) : (cmdWord op d2 d).extractLsb' 6 9 = d := by
  unfold cmdWord
  ext i hi
  simp only [BitVec.getElem_extractLsb', BitVec.getLsbD_append]
  rw [if_neg (by omega), if_pos (by omega)]
  simp [BitVec.getLsbD_eq_getElem, hi]

theorem cmdWord_secondType (op : Opcode) (d2 d : BitVec 9) : (cmdWord op d2 d).extractLsb' 15 9 = d2 := by
  unfold cmdWord
  ext i hi
  simp only [BitVec.getElem_extractLsb', BitVec.getLsbD_append]
  rw [if_neg (by omega), if_neg (by omega), if_pos (by omega)]
  simp [show 15 + i - 6 - 9 = i by omega, BitVec.getLsbD_eq_getElem, hi]

theorem cmdWord_reserved (op : Opcode) (d2 d : BitVec 9) : (cmdWord op d2 d).extractLsb' 24 8 = 0#8 := by
  unfold cmdWord
  ext i hi
  simp only [BitVec.getElem_extractLsb', BitVec.getLsbD_append]
  rw [if_neg (by omega), if_neg (by omega), if_neg (by omega)]
  simp

theorem cmdWord_untyped (op : Opcode) : (cmdWord op 0#9 0#9).extractLsb' 6 18 = 0#18 := by
  cases op <;> decide

/-- A legal descriptor is read back as the type it was written from (R73). -/
theorem FxType.ofDescriptor_descriptor {t : FxType} (h : t.legal = true) :
    FxType.ofDescriptor t.descriptor = t := by
  obtain ⟨w, g, f⟩ := t
  have hf : f < 64 := by
    simp only [FxType.legal, decide_eq_true_eq] at h
    omega
  have hfield : ∀ w g (f : BitVec 6), FxType.ofDescriptor (f ++ BitVec.ofBool g ++ Width.code w) =
      ⟨w, g, f.toNat⟩ := by
    intro w g f
    cases w <;> cases g <;> revert f <;> decide
  have := hfield w g (BitVec.ofNat 6 f)
  rw [FxType.descriptor, this, BitVec.toNat_ofNat, Nat.mod_eq_of_lt hf]

end Sys2Proof
end

