-- ==== Sys2Proof/Laws/Operands.lean ====
section
/-! SUPPORT. What the operand helpers do: their ranges, and what they are congruent to. -/

namespace Sys2Proof

theorem Width.bits_pos (w : Width) : 0 < w.bits := by cases w <;> decide

theorem Width.bits_le (w : Width) : w.bits ≤ 64 := by cases w <;> decide

namespace Machine

theorem pow2_pos (k : Nat) : 0 < pow2 k := Int.natCast_pos.2 (Nat.two_pow_pos k)

/-- The range of a signed type is half below and half above zero. -/
theorem pow2_pred_add (w : Width) : pow2 (w.bits - 1) + pow2 (w.bits - 1) = pow2 w.bits := by
  cases w <;> decide

/-- `asr` is the floor of the quotient by `2^k`. -/
theorem asr_spec (a : Int) (k : Nat) : asr a k * pow2 k ≤ a ∧ a < (asr a k + 1) * pow2 k := by
  have h := pow2_pos k
  refine ⟨Int.ediv_mul_le a h.ne', ?_⟩
  have := Int.lt_ediv_add_one_mul_self a h
  simpa [asr, floorDiv] using this

theorem asr_zero (a : Int) : asr a 0 = a := by simp [asr, floorDiv, pow2]

theorem asr_mul_pow2 (a : Int) (k : Nat) : asr (a * pow2 k) k = a := by
  simp [asr, floorDiv]

theorem asr_nonneg {a : Int} (h : 0 ≤ a) (k : Nat) : 0 ≤ asr a k := Int.ediv_nonneg h (pow2_pos k).le

theorem asr_le_asr {a b : Int} (h : a ≤ b) (k : Nat) : asr a k ≤ asr b k := Int.ediv_le_ediv (pow2_pos k) h

/-- `trunc_rem` is the remainder of truncating division. -/
theorem truncRem_eq_tmod (a b : Int) : truncRem a b = a.tmod b := by
  rw [truncRem, truncDiv, Int.tmod_def]

/-- `val_T` gives an integer of T. -/
theorem valT_inRange (t : FxType) (x : Word) : InRange t (valT t x) := by
  unfold InRange valT
  split
  · have h1 := BitVec.le_two_mul_toInt (x := x.setWidth t.width.bits)
    have h2 := BitVec.two_mul_toInt_lt (x := x.setWidth t.width.bits)
    have h3 := pow2_pred_add t.width
    have h4 : (2 : Int) ^ t.width.bits = pow2 t.width.bits := by simp [pow2]
    omega
  · refine ⟨by omega, ?_⟩
    have := (x.setWidth t.width.bits).isLt
    exact_mod_cast this

/-- An unsigned type has no negative value. -/
theorem valT_nonneg {t : FxType} (h : t.signed = false) (x : Word) : 0 ≤ valT t x := by
  unfold valT
  rw [h]
  exact Int.natCast_nonneg _

/-- `wrap_T` gives an integer of T. -/
theorem wrapT_inRange (t : FxType) (n : Int) : InRange t (wrapT t n) := by
  have hp := pow2_pos t.width.bits
  have h3 := pow2_pred_add t.width
  unfold InRange wrapT emod
  split
  · have h1 := Int.emod_nonneg (n + pow2 (t.width.bits - 1)) hp.ne'
    have h2 := Int.emod_lt_of_pos (n + pow2 (t.width.bits - 1)) hp
    omega
  · exact ⟨Int.emod_nonneg n hp.ne', Int.emod_lt_of_pos n hp⟩

/-- `wrap_T(n)` is congruent to `n` modulo `2^W`. -/
theorem wrapT_modEq (t : FxType) (n : Int) : wrapT t n ≡ n [ZMOD pow2 t.width.bits] := by
  unfold wrapT emod
  split
  · have h := (Int.mod_modEq (n + pow2 (t.width.bits - 1)) (pow2 t.width.bits)).sub_right
      (pow2 (t.width.bits - 1))
    simpa using h
  · exact Int.mod_modEq n _

/-- An integer of T is what it wraps to: T has one value in each class modulo `2^W`. -/
theorem wrapT_of_inRange {t : FxType} {n : Int} (h : InRange t n) : wrapT t n = n := by
  have h3 := pow2_pred_add t.width
  unfold InRange at h
  unfold wrapT emod
  split
  · rename_i hs
    rw [if_pos hs] at h
    rw [Int.emod_eq_of_lt (by omega) (by omega)]
    omega
  · rename_i hs
    rw [if_neg hs] at h
    exact Int.emod_eq_of_lt h.1 h.2

/-- Both extensions of `out_T` are the 64-bit pattern of the integer. -/
theorem outT_eq_ofInt {t : FxType} {n : Int} (h : InRange t n) : outT t n = BitVec.ofInt 64 n := by
  unfold outT
  split
  · rfl
  · rename_i hs
    unfold InRange at h
    rw [if_neg hs] at h
    obtain ⟨m, rfl⟩ := Int.eq_ofNat_of_zero_le h.1
    simp

/-- `roundHalfUpShift` is the floor of `m / 2^k + 1/2` for every `m`, small ones too. -/
theorem roundHalfUpShift_succ (m k : Nat) : roundHalfUpShift m (k + 1) = (m + 2 ^ k) / 2 ^ (k + 1) := by
  unfold roundHalfUpShift
  dsimp only
  split
  · rename_i h
    have hlt : m < 2 ^ k := lt_of_lt_of_le Nat.lt_log2_self (Nat.pow_le_pow_right (by norm_num) h)
    rw [eq_comm, Nat.div_eq_of_lt]
    rw [pow_succ]
    omega
  · rfl

/-- Raw 0 has the magnitude bits of 0.0 (R105). -/
theorem roundEvenMagnitude_zero (sig bias frac : Nat) : roundEvenMagnitude sig bias 0 frac = 0 := rfl

/-- The rounded significand is at least the leading power of two. -/
theorem roundEvenSignificand_ge {sig m : Nat} (hm : m ≠ 0) : 2 ^ sig ≤ roundEvenSignificand sig m := by
  have hlog := Nat.log2_self_le hm
  unfold roundEvenSignificand
  split
  · rename_i h
    calc 2 ^ sig = 2 ^ m.log2 * 2 ^ (sig - m.log2) := by rw [← pow_add]; congr 1; omega
      _ ≤ m * 2 ^ (sig - m.log2) := Nat.mul_le_mul_right _ hlog
  · rename_i h
    have hq : 2 ^ sig ≤ m / 2 ^ (m.log2 - sig) := by
      rw [Nat.le_div_iff_mul_le (Nat.two_pow_pos _), ← pow_add]
      convert hlog using 2
      omega
    dsimp only
    split <;> omega

end Machine
end Sys2Proof
end

