-- ==== Sys2Proof/Laws/State.lean ====
section
/-! SUPPORT. One lemma per field per update of State, so that no later proof unfolds a record update, and what
depends only on the fields an update keeps. -/

namespace Sys2Proof.Machine

variable (s : State)

/-! ## completeOk -/

@[simp] theorem State.completeOk_config : s.completeOk.config = s.config := rfl
@[simp] theorem State.completeOk_angle : s.completeOk.angle = s.angle := rfl
@[simp] theorem State.completeOk_chn1 : s.completeOk.chn1 = s.chn1 := rfl
@[simp] theorem State.completeOk_chn2 : s.completeOk.chn2 = s.chn2 := rfl
@[simp] theorem State.completeOk_chn3 : s.completeOk.chn3 = s.chn3 := rfl
@[simp] theorem State.completeOk_chnValid : s.completeOk.chnValid = s.chnValid := rfl
@[simp] theorem State.completeOk_res : s.completeOk.res = s.res := rfl
@[simp] theorem State.completeOk_status : s.completeOk.status = statusOk := rfl
@[simp] theorem State.completeOk_faults : s.completeOk.faults = s.faults := rfl
@[simp] theorem State.completeOk_port : s.completeOk.port = s.port := rfl

/-! ## raise -/

@[simp] theorem State.raise_config (e : CommandFault) : (s.raise e).config = s.config := rfl
@[simp] theorem State.raise_angle (e : CommandFault) : (s.raise e).angle = s.angle := rfl
@[simp] theorem State.raise_chn1 (e : CommandFault) : (s.raise e).chn1 = s.chn1 := rfl
@[simp] theorem State.raise_chn2 (e : CommandFault) : (s.raise e).chn2 = s.chn2 := rfl
@[simp] theorem State.raise_chn3 (e : CommandFault) : (s.raise e).chn3 = s.chn3 := rfl
@[simp] theorem State.raise_chnValid (e : CommandFault) : (s.raise e).chnValid = s.chnValid := rfl
@[simp] theorem State.raise_res (e : CommandFault) : (s.raise e).res = s.res := rfl
@[simp] theorem State.raise_status (e : CommandFault) : (s.raise e).status = statusOf e := rfl
@[simp] theorem State.raise_faults (e : CommandFault) : (s.raise e).faults = setSticky s.faults e := rfl
@[simp] theorem State.raise_port (e : CommandFault) : (s.raise e).port = s.port := rfl

/-! ## writeRes -/

@[simp] theorem State.writeRes_config (v : Word) : (s.writeRes v).config = s.config := rfl
@[simp] theorem State.writeRes_angle (v : Word) : (s.writeRes v).angle = s.angle := rfl
@[simp] theorem State.writeRes_chn1 (v : Word) : (s.writeRes v).chn1 = s.chn1 := rfl
@[simp] theorem State.writeRes_chn2 (v : Word) : (s.writeRes v).chn2 = s.chn2 := rfl
@[simp] theorem State.writeRes_chn3 (v : Word) : (s.writeRes v).chn3 = s.chn3 := rfl
@[simp] theorem State.writeRes_chnValid (v : Word) : (s.writeRes v).chnValid = s.chnValid := rfl
@[simp] theorem State.writeRes_res (v : Word) : (s.writeRes v).res = v := rfl
@[simp] theorem State.writeRes_status (v : Word) : (s.writeRes v).status = s.status := rfl
@[simp] theorem State.writeRes_faults (v : Word) : (s.writeRes v).faults = s.faults := rfl
@[simp] theorem State.writeRes_port (v : Word) : (s.writeRes v).port = s.port := rfl

/-! ## writeAngle -/

@[simp] theorem State.writeAngle_config (v : Int) : (s.writeAngle v).config = s.config := rfl
@[simp] theorem State.writeAngle_angle (v : Int) : (s.writeAngle v).angle = BitVec.ofInt 32 v := rfl
@[simp] theorem State.writeAngle_chn1 (v : Int) : (s.writeAngle v).chn1 = s.chn1 := rfl
@[simp] theorem State.writeAngle_chn2 (v : Int) : (s.writeAngle v).chn2 = s.chn2 := rfl
@[simp] theorem State.writeAngle_chn3 (v : Int) : (s.writeAngle v).chn3 = s.chn3 := rfl
@[simp] theorem State.writeAngle_chnValid (v : Int) : (s.writeAngle v).chnValid = s.chnValid := rfl
@[simp] theorem State.writeAngle_res (v : Int) : (s.writeAngle v).res = s.res := rfl
@[simp] theorem State.writeAngle_status (v : Int) : (s.writeAngle v).status = s.status := rfl
@[simp] theorem State.writeAngle_faults (v : Int) : (s.writeAngle v).faults = s.faults := rfl
@[simp] theorem State.writeAngle_port (v : Int) : (s.writeAngle v).port = s.port := rfl

/-! ## writeChannels -/

@[simp] theorem State.writeChannels_config (c1 c2 c3 : Int) : (s.writeChannels c1 c2 c3).config = s.config := rfl
@[simp] theorem State.writeChannels_angle (c1 c2 c3 : Int) : (s.writeChannels c1 c2 c3).angle = s.angle := rfl
@[simp] theorem State.writeChannels_chn1 (c1 c2 c3 : Int) : (s.writeChannels c1 c2 c3).chn1 = BitVec.ofInt 32 c1 := rfl
@[simp] theorem State.writeChannels_chn2 (c1 c2 c3 : Int) : (s.writeChannels c1 c2 c3).chn2 = BitVec.ofInt 32 c2 := rfl
@[simp] theorem State.writeChannels_chn3 (c1 c2 c3 : Int) : (s.writeChannels c1 c2 c3).chn3 = BitVec.ofInt 32 c3 := rfl
@[simp] theorem State.writeChannels_chnValid (c1 c2 c3 : Int) : (s.writeChannels c1 c2 c3).chnValid = true := rfl
@[simp] theorem State.writeChannels_res (c1 c2 c3 : Int) : (s.writeChannels c1 c2 c3).res = s.res := rfl
@[simp] theorem State.writeChannels_status (c1 c2 c3 : Int) : (s.writeChannels c1 c2 c3).status = s.status := rfl
@[simp] theorem State.writeChannels_faults (c1 c2 c3 : Int) : (s.writeChannels c1 c2 c3).faults = s.faults := rfl
@[simp] theorem State.writeChannels_port (c1 c2 c3 : Int) : (s.writeChannels c1 c2 c3).port = s.port := rfl

/-! ## finishRes -/

@[simp] theorem State.finishRes_config (v : Word) : (s.finishRes v).config = s.config := rfl
@[simp] theorem State.finishRes_angle (v : Word) : (s.finishRes v).angle = s.angle := rfl
@[simp] theorem State.finishRes_chn1 (v : Word) : (s.finishRes v).chn1 = s.chn1 := rfl
@[simp] theorem State.finishRes_chn2 (v : Word) : (s.finishRes v).chn2 = s.chn2 := rfl
@[simp] theorem State.finishRes_chn3 (v : Word) : (s.finishRes v).chn3 = s.chn3 := rfl
@[simp] theorem State.finishRes_chnValid (v : Word) : (s.finishRes v).chnValid = s.chnValid := rfl
@[simp] theorem State.finishRes_res (v : Word) : (s.finishRes v).res = v := rfl
@[simp] theorem State.finishRes_status (v : Word) : (s.finishRes v).status = statusOk := rfl
@[simp] theorem State.finishRes_faults (v : Word) : (s.finishRes v).faults = s.faults := rfl
@[simp] theorem State.finishRes_port (v : Word) : (s.finishRes v).port = s.port := rfl

/-! ## withCommand -/

@[simp] theorem State.withCommand_config (c : Command) : (s.withCommand c).config = s.config := rfl
@[simp] theorem State.withCommand_angle (c : Command) : (s.withCommand c).angle = s.angle := rfl
@[simp] theorem State.withCommand_chn1 (c : Command) : (s.withCommand c).chn1 = s.chn1 := rfl
@[simp] theorem State.withCommand_chn2 (c : Command) : (s.withCommand c).chn2 = s.chn2 := rfl
@[simp] theorem State.withCommand_chn3 (c : Command) : (s.withCommand c).chn3 = s.chn3 := rfl
@[simp] theorem State.withCommand_chnValid (c : Command) : (s.withCommand c).chnValid = s.chnValid := rfl
@[simp] theorem State.withCommand_res (c : Command) : (s.withCommand c).res = s.res := rfl
@[simp] theorem State.withCommand_status (c : Command) : (s.withCommand c).status = s.status := rfl
@[simp] theorem State.withCommand_faults (c : Command) : (s.withCommand c).faults = s.faults := rfl
@[simp] theorem State.withCommand_port (c : Command) : (s.withCommand c).port = c :: s.port.tail := rfl

/-! ## What an update keeps -/

@[simp] theorem State.completeOk_sector : s.completeOk.sector = s.sector := rfl
@[simp] theorem State.completeOk_sectorAngle : s.completeOk.sectorAngle = s.sectorAngle := rfl
@[simp] theorem State.raise_sector (e : CommandFault) : (s.raise e).sector = s.sector := rfl
@[simp] theorem State.raise_sectorAngle (e : CommandFault) : (s.raise e).sectorAngle = s.sectorAngle := rfl
@[simp] theorem State.writeRes_sector (v : Word) : (s.writeRes v).sector = s.sector := rfl
@[simp] theorem State.writeRes_sectorAngle (v : Word) : (s.writeRes v).sectorAngle = s.sectorAngle := rfl
@[simp] theorem State.writeChannels_sector (c1 c2 c3 : Int) : (s.writeChannels c1 c2 c3).sector = s.sector := rfl
@[simp] theorem State.writeChannels_sectorAngle (c1 c2 c3 : Int) : (s.writeChannels c1 c2 c3).sectorAngle = s.sectorAngle := rfl
@[simp] theorem State.finishRes_sector (v : Word) : (s.finishRes v).sector = s.sector := rfl
@[simp] theorem State.finishRes_sectorAngle (v : Word) : (s.finishRes v).sectorAngle = s.sectorAngle := rfl
@[simp] theorem State.withCommand_sector (c : Command) : (s.withCommand c).sector = s.sector := rfl
@[simp] theorem State.withCommand_sectorAngle (c : Command) : (s.withCommand c).sectorAngle = s.sectorAngle := rfl

/-! ## Reset -/

variable (c : Config)

@[simp] theorem State.afterReset_config : (State.afterReset c).config = c := rfl
@[simp] theorem State.afterReset_angle : (State.afterReset c).angle = 0#32 := rfl
@[simp] theorem State.afterReset_chn1 : (State.afterReset c).chn1 = State.channelAfterReset c 1 := rfl
@[simp] theorem State.afterReset_chn2 : (State.afterReset c).chn2 = State.channelAfterReset c 2 := rfl
@[simp] theorem State.afterReset_chn3 : (State.afterReset c).chn3 = State.channelAfterReset c 3 := rfl
@[simp] theorem State.afterReset_chnValid : (State.afterReset c).chnValid = decide (c.outReset = .zero) := rfl
@[simp] theorem State.afterReset_res : (State.afterReset c).res = 0#64 := rfl
@[simp] theorem State.afterReset_status : (State.afterReset c).status = 0#8 := rfl
@[simp] theorem State.afterReset_faults : (State.afterReset c).faults = 0#8 := rfl
@[simp] theorem State.afterReset_port : (State.afterReset c).port = [] := rfl

end Sys2Proof.Machine
end

