-- ==== Sys2Proof/Laws/Table.lean ====
section
/-! SUPPORT. What the table's operations do: the exact comparison agrees with the real cosine, the search finds
the largest value the entry reaches, and the reads are defined exactly inside the table. -/

namespace Sys2Proof.Machine

open Real

/-- The angle `j * 60° / 2^p` in radians. -/
noncomputable def stepAngle (p j : Nat) : ℝ := j * (π / 3) / 2 ^ p

theorem stepAngle_nonneg (p j : Nat) : 0 ≤ stepAngle p j := by
  unfold stepAngle; positivity

theorem stepAngle_le_half_pi {p j : Nat} (h : 2 * j ≤ 3 * 2 ^ p) : stepAngle p j ≤ π / 2 := by
  have h' : (2 * j : ℝ) ≤ 3 * 2 ^ p := by exact_mod_cast h
  unfold stepAngle
  rw [div_le_div_iff₀ (by positivity) (by norm_num)]
  nlinarith [pi_pos]

theorem stepAngle_double (p j : Nat) : stepAngle p j = 2 * stepAngle (p + 1) j := by
  unfold stepAngle
  rw [pow_succ]
  field_simp

theorem stepAngle_fold {p j : Nat} (h : j ≤ 3 * 2 ^ p) :
    stepAngle p (3 * 2 ^ p - j) = π - stepAngle p j := by
  unfold stepAngle
  push_cast [Nat.cast_sub h]
  field_simp

theorem cos_stepAngle_nonneg {p j : Nat} (h : 2 * j ≤ 3 * 2 ^ p) : 0 ≤ cos (stepAngle p j) :=
  cos_nonneg_of_mem_Icc ⟨by linarith [stepAngle_nonneg p j, pi_pos], stepAngle_le_half_pi h⟩

/-- Squaring keeps the order of non-negative numbers: the step from an angle to its double. -/
theorem cmp_double {c r : ℝ} (hc : 0 ≤ c) (hr : 0 ≤ r) : cmp c r = cmp (2 * c ^ 2 - 1) (2 * r ^ 2 - 1) := by
  rcases lt_trichotomy c r with h | h | h
  · rw [(cmp_eq_lt_iff _ _).2 h, eq_comm, cmp_eq_lt_iff]; nlinarith
  · subst h; simp
  · rw [(cmp_eq_gt_iff _ _).2 h, eq_comm, cmp_eq_gt_iff]; nlinarith

theorem cmp_neg_swap (a b : ℝ) : (cmp a (-b)).swap = cmp (-a) b := by
  rw [cmp_swap]
  rcases lt_trichotomy (-b) a with h | h | h
  · rw [(cmp_eq_lt_iff _ _).2 h, eq_comm, cmp_eq_lt_iff]; linarith
  · rw [(cmp_eq_eq_iff _ _).2 h, eq_comm, cmp_eq_eq_iff]; linarith
  · rw [(cmp_eq_gt_iff _ _).2 h, eq_comm, cmp_eq_gt_iff]; linarith

theorem compare_eq_cmp_div {x d : Nat} (hd : 0 < d) : compare d x = cmp (1 : ℝ) (x / d) := by
  have hd' : (0 : ℝ) < d := by exact_mod_cast hd
  rcases lt_trichotomy d x with h | h | h
  · rw [Nat.compare_eq_lt.2 h, eq_comm, cmp_eq_lt_iff, lt_div_iff₀ hd', one_mul]; exact_mod_cast h
  · rw [Nat.compare_eq_eq.2 h, eq_comm, cmp_eq_eq_iff, eq_div_iff hd'.ne', one_mul]; exact_mod_cast h
  · rw [Nat.compare_eq_gt.2 h, eq_comm, cmp_eq_gt_iff, div_lt_iff₀ hd', one_mul]
    exact_mod_cast h

theorem cmp_half (r : ℝ) : cmp (1 / 2) r = cmp 1 (2 * r) := by
  rcases lt_trichotomy (1 / 2) r with h | h | h
  · rw [(cmp_eq_lt_iff _ _).2 h, eq_comm, cmp_eq_lt_iff]; linarith
  · rw [(cmp_eq_eq_iff _ _).2 h, eq_comm, cmp_eq_eq_iff]; linarith
  · rw [(cmp_eq_gt_iff _ _).2 h, eq_comm, cmp_eq_gt_iff]; linarith

/-- The comparison is exact: it is the order of the real cosine and the fraction. -/
theorem cosCompare_eq_cmp (p : Nat) : ∀ {j x d : Nat}, 0 < d → 2 * j ≤ 3 * 2 ^ p →
    cosCompare p j x d = cmp (cos (stepAngle p j)) ((x : ℝ) / d) := by
  induction p with
  | zero =>
    intro j x d hd hj
    have hj : j = 0 ∨ j = 1 := by omega
    rcases hj with rfl | rfl
    · simp [cosCompare, stepAngle, compare_eq_cmp_div hd]
    · have hcos : cos (stepAngle 0 1) = 1 / 2 := by simp [stepAngle]
      rw [hcos, cmp_half, show (2 : ℝ) * (x / d) = ((2 * x : Nat) : ℝ) / d by push_cast; ring,
        ← compare_eq_cmp_div hd]
      simp [cosCompare]
  | succ p ih =>
    intro j x d hd hj
    have hd' : (0 : ℝ) < d := by exact_mod_cast hd
    have hc := cos_stepAngle_nonneg hj
    have hr : (0 : ℝ) ≤ (x : ℝ) / d := by positivity
    have hdouble : cos (stepAngle p j) = 2 * cos (stepAngle (p + 1) j) ^ 2 - 1 := by
      rw [stepAngle_double, cos_two_mul]
    have hfrac : 2 * ((x : ℝ) / d) ^ 2 - 1 = (2 * (x * x) - d * d) / (d * d) := by field_simp
    unfold cosCompare
    rw [cmp_double hc hr, ← hdouble, hfrac]
    have hdd : (0 : ℝ) < d * d := by positivity
    split_ifs with h1 h2 h3 h4
    · -- the fraction is above 1
      have h1' : (d : ℝ) < x := by exact_mod_cast h1
      rw [eq_comm, cmp_eq_lt_iff, lt_div_iff₀ hdd]
      nlinarith [cos_le_one (stepAngle p j)]
    · have h3' : (2 * (x * x) : ℝ) < d * d := by exact_mod_cast h3
      rw [eq_comm, cmp_eq_gt_iff]
      exact lt_of_lt_of_le (div_neg_of_neg_of_pos (by linarith) hdd) (cos_stepAngle_nonneg h2)
    · rw [ih (by positivity) h2]
      push_cast [Nat.cast_sub (not_lt.1 h3)]
      rfl
    · have hfold : j ≤ 3 * 2 ^ p := by rw [pow_succ] at hj; omega
      have hneg : 2 * (3 * 2 ^ p - j) ≤ 3 * 2 ^ p := by omega
      have h4' : (d * d : ℝ) < 2 * (x * x) := by exact_mod_cast h4
      have hcos := cos_stepAngle_nonneg hneg
      rw [stepAngle_fold hfold, cos_pi_sub] at hcos
      rw [eq_comm, cmp_eq_lt_iff]
      exact lt_of_le_of_lt (by linarith) (div_pos (by linarith) hdd)
    · have hfold : j ≤ 3 * 2 ^ p := by rw [pow_succ] at hj; omega
      rw [ih (by positivity) (by omega), stepAngle_fold hfold, cos_pi_sub]
      have : ((d * d - 2 * (x * x) : Nat) : ℝ) / ((d * d : Nat) : ℝ)
          = -((2 * (x * x) - d * d) / (d * d)) := by
        push_cast [Nat.cast_sub (not_lt.1 h4)]
        ring
      rw [this, cmp_neg_swap, neg_neg]

/-- The exact value the entry rounds, `SCALE_MAX * sin(60° - i * 60° / 2^P)` (R150). -/
noncomputable def exactEntry (c : Config) (i : Nat) : ℝ :=
  c.scaleMax * sin (π / 3 - i * (π / 3) / 2 ^ c.precision)

theorem sin_eq_cos_stepAngle {p : Nat} (hp : 1 ≤ p) (i : Nat) :
    sin (π / 3 - i * (π / 3) / 2 ^ p) = cos (stepAngle p (2 ^ p / 2 + i)) := by
  obtain ⟨q, rfl⟩ : ∃ q, p = q + 1 := ⟨p - 1, by omega⟩
  rw [← cos_pi_div_two_sub]
  congr 1
  have hhalf : 2 ^ (q + 1) / 2 = 2 ^ q := by rw [pow_succ, Nat.mul_div_cancel _ (by norm_num)]
  unfold stepAngle
  rw [hhalf, pow_succ]
  push_cast
  field_simp
  ring

/-- An entry reaches `e` exactly when its value rounds to `e` or more. -/
theorem entryReaches_iff {c : Config} (hc : c.Legal) {i e : Nat} (hi : i ≤ c.steps) (he : 1 ≤ e) :
    entryReaches c i e = true ↔
      (e : ℝ) - 1 / 2 < exactEntry c i ∨ ((e : ℝ) - 1 / 2 = exactEntry c i ∧ c.tie = .halfUp) := by
  obtain ⟨hp, -, hs, -⟩ := hc
  have hs' : (0 : ℝ) < c.scaleMax := by exact_mod_cast hs
  have hj : 2 * (c.steps / 2 + i) ≤ 3 * 2 ^ c.precision := by unfold Config.steps at *; omega
  have hfrac : ((2 * e - 1 : Nat) : ℝ) / ((2 * c.scaleMax : Nat) : ℝ) = ((e : ℝ) - 1 / 2) / c.scaleMax := by
    push_cast [Nat.cast_sub (show 1 ≤ 2 * e by omega)]
    field_simp
  unfold entryReaches exactEntry
  rw [sin_eq_cos_stepAngle hp, cosCompare_eq_cmp _ (by omega) hj, hfrac]
  set v := cos (stepAngle c.precision (2 ^ c.precision / 2 + i))
  rcases lt_trichotomy v (((e : ℝ) - 1 / 2) / c.scaleMax) with h | h | h
  · rw [(cmp_eq_lt_iff _ _).2 h]
    rw [lt_div_iff₀ hs'] at h
    simp only [Bool.false_eq_true, false_iff, not_or, not_lt, not_and]
    exact ⟨by linarith, fun h' => by linarith⟩
  · rw [(cmp_eq_eq_iff _ _).2 h]
    rw [eq_div_iff hs'.ne'] at h
    simp only [decide_eq_true_eq]
    exact ⟨fun ht => .inr ⟨by linarith, ht⟩, fun ht => ht.elim (fun hl => absurd hl (by linarith)) (·.2)⟩
  · rw [(cmp_eq_gt_iff _ _).2 h]
    rw [div_lt_iff₀ hs'] at h
    simp only [true_iff]
    exact .inl (by linarith)

/-- The search stays in its range, ends on a value the entry reaches (or where it began), and cannot go on. -/
theorem entrySearch_spec (c : Config) (i : Nat) (bits : Nat) :
    ∀ base, (base = 0 ∨ entryReaches c i base = true) →
      ¬ entryReaches c i (base + 2 ^ bits) = true →
      base ≤ entrySearch c i bits base ∧
      entrySearch c i bits base < base + 2 ^ bits ∧
      (entrySearch c i bits base = 0 ∨ entryReaches c i (entrySearch c i bits base) = true) ∧
      ¬ entryReaches c i (entrySearch c i bits base + 1) = true := by
  induction bits with
  | zero => intro base h0 h1; exact ⟨le_rfl, by simp [entrySearch], h0, by simpa [entrySearch] using h1⟩
  | succ bits ih =>
    intro base h0 h1
    have hpow : 2 ^ (bits + 1) = 2 ^ bits + 2 ^ bits := by rw [pow_succ]; ring
    unfold entrySearch
    split_ifs with h
    · obtain ⟨a, b, c', d⟩ := ih (base + 2 ^ bits) (.inr h) (by rw [add_assoc, ← hpow]; exact h1)
      exact ⟨by omega, by omega, c', d⟩
    · obtain ⟨a, b, c', d⟩ := ih base h0 h
      exact ⟨a, by omega, c', d⟩

/-! ## Reads -/

/-- `MemRead` inside the table is the entry (R51). -/
theorem memRead_of_lt {c : Config} {i : Nat} (h : i < tableSize c) : memRead c i = some (tableEntry c i) := by
  simp [memRead, h]

/-- `MemRead` is defined nowhere else (R52). -/
theorem memRead_of_le {c : Config} {i : Nat} (h : tableSize c ≤ i) : memRead c i = none := by
  simp [memRead, Nat.not_lt.2 h]

theorem steps_pos (c : Config) : 0 < c.steps := Nat.two_pow_pos _

theorem lt_tableSize {c : Config} {s : Nat} (h : s < c.steps) : s < tableSize c := by
  unfold tableSize; split <;> omega

theorem secondIndex_lt {c : Config} {s : Nat} (h : s < c.steps) : secondIndex c s < tableSize c := by
  unfold secondIndex tableSize; split <;> omega

/-- Everything the lookup of a sector angle answers (R158, R159). -/
theorem lookup_of_lt {c : Config} {s : Nat} (h : s < c.steps) :
    lookup c s = some (tableEntry c s, tableEntry c (secondIndex c s)) := by
  simp [lookup, memRead_of_lt (lt_tableSize h), memRead_of_lt (secondIndex_lt h)]

end Sys2Proof.Machine
end

