-- ==== Sys2Proof/Laws/Ops.lean ====
section
/-! SUPPORT. What each shared operation of the meanings answers, and from it everything a command or a step can
do: proofs cite these and unfold no meaning. -/

namespace Sys2Proof.Machine

/-- `normAngle` lands in `[0, M)` (R180). -/
theorem normAngle_range (c : Config) (x : Int) : 0 ≤ normAngle c x ∧ normAngle c x < c.domain := by
  have hM : (0 : Int) < c.domain := by
    have := steps_pos c
    unfold Config.domain
    omega
  exact ⟨Int.emod_nonneg x hM.ne', Int.emod_lt_of_pos x hM⟩

/-- `normAngle` only removes multiples of M (R180). -/
theorem normAngle_modEq (c : Config) (x : Int) : normAngle c x ≡ x [ZMOD c.domain] := Int.mod_modEq x _

/-- A value already in the domain is kept. -/
theorem normAngle_of_range {c : Config} {x : Int} (h0 : 0 ≤ x) (h1 : x < c.domain) : normAngle c x = x :=
  Int.emod_eq_of_lt h0 h1

/-- The domain of an admitted block fits ANGLE (R10, R22). -/
theorem domain_le {c : Config} (h : c.Legal) : c.domain ≤ 393216 := by
  have : c.steps ≤ 2 ^ 16 := Nat.pow_le_pow_right (by norm_num) h.2.1
  unfold Config.domain
  omega

/-- What ANGLE holds after a normalised write, as the integer it stands for. -/
theorem toInt_ofInt_normAngle {c : Config} (h : c.Legal) (x : Int) :
    (BitVec.ofInt 32 (normAngle c x)).toInt = normAngle c x := by
  obtain ⟨h0, h1⟩ := normAngle_range c x
  have := domain_le h
  rw [BitVec.toInt_ofInt]
  exact Int.bmod_eq_of_le (by omega) (by omega)

/-- Everything the end of SVM_UPDATE can answer. -/
theorem finishChannels_cases (c1 c2 c3 : Int) (s : State) :
    (c1 ≤ pow2 32 - 1 ∧ c2 ≤ pow2 32 - 1 ∧ c3 ≤ pow2 32 - 1 ∧
      finishChannels c1 c2 c3 s = .next (s.writeChannels c1 c2 c3).completeOk) ∨
    (pow2 32 - 1 < max c1 (max c2 c3) ∧ finishChannels c1 c2 c3 s = .next (s.raise .modulationRange)) := by
  unfold finishChannels
  split
  · exact .inr ⟨‹_›, rfl⟩
  · rename_i h
    refine .inl ⟨?_, ?_, ?_, rfl⟩ <;> omega

/-- What the router answers for a sector that occurs: each channel is the zero value plus some of `a`, `b`. -/
theorem route_of_le {sector : BitVec 3} (h : sector.toNat ≤ 5) (zero a b : Int) :
    ∃ c1 c2 c3, route sector zero a b = some (c1, c2, c3) := by
  unfold route
  generalize sector.toNat = n at h
  interval_cases n <;> exact ⟨_, _, _, rfl⟩

/-- A command that carries a result ends OK with it in RES, or raises one fault. -/
def EndsWithResult (o : Outcome) (s : State) : Prop :=
  (∃ v, o = .next (s.finishRes v)) ∨ ∃ e, o = .next (s.raise e)

/-- Everything a command can do: write RES, write a normalised ANGLE, write the channels, raise a fault, or stop
for what the rules say never occurs. -/
theorem exec_cases (i : Instr) (s : State) :
    EndsWithResult (exec i s) s ∨
    (∃ x, exec i s = .next (s.writeAngle (normAngle s.config x)).completeOk) ∨
    (∃ c1 c2 c3, exec i s = .next (s.writeChannels c1 c2 c3).completeOk) ∨
    (∃ r, exec i s = .fault r) := by
  have res : ∀ v, EndsWithResult (.next (s.finishRes v)) s := fun v => .inl ⟨v, rfl⟩
  have exc : ∀ e, EndsWithResult (.next (s.raise e)) s := fun e => .inr ⟨e, rfl⟩
  cases i with
  | fpFromReal t opa =>
    refine .inl ?_
    show EndsWithResult (execFpFromReal t opa s) s
    unfold execFpFromReal
    split
    exacts [exc _, res _]
  | fpDiv t opa opb =>
    refine .inl ?_
    show EndsWithResult (execFpDiv t opa opb s) s
    unfold execFpDiv
    split
    exacts [exc _, res _]
  | fpMod t opa opb =>
    refine .inl ?_
    show EndsWithResult (execFpMod t opa opb s) s
    unfold execFpMod
    split
    exacts [exc _, res _]
  | tblRead opa =>
    show EndsWithResult (execTblRead opa s) s ∨ _
    refine .inl ?_
    unfold execTblRead
    split
    · exact exc _
    · rw [memRead_of_lt (by omega)]
      exact res _
  | svmSetAngle opa => exact .inr (.inl ⟨_, rfl⟩)
  | svmMove opa => exact .inr (.inl ⟨_, rfl⟩)
  | svmUpdate t opa =>
    show EndsWithResult (execSvmUpdate t opa s) s ∨ (∃ x, execSvmUpdate t opa s = _) ∨
      (∃ c1 c2 c3, execSvmUpdate t opa s = _) ∨ (∃ r, execSvmUpdate t opa s = _)
    unfold execSvmUpdate
    split
    · exact .inl (exc _)
    · split
      · rename_i scaleA scaleB _
        unfold updateFrom
        dsimp only
        split
        · rename_i c1 c2 c3 _
          rcases finishChannels_cases c1 c2 c3 s with ⟨-, -, -, h⟩ | ⟨-, h⟩
          · exact .inr (.inr (.inl ⟨c1, c2, c3, h⟩))
          · exact .inl (.inr ⟨_, h⟩)
        · exact .inr (.inr (.inr ⟨_, rfl⟩))
      · exact .inr (.inr (.inr ⟨_, rfl⟩))
  | _ => exact .inl (res _)

/-- Everything a step of the model can do when it answers a next state. -/
theorem step_cases {s s' : State} (h : step s = .next s') :
    s.config.Legal ∧
    ((s.port = [] ∧ s' = s) ∨
      ∃ c rest, s.port = c :: rest ∧
        ((∃ i, decode c = .ok i ∧ exec i { s with port := rest } = .next s') ∨
          ((∃ e, decode c = .error e) ∧ s' = { s with port := rest }.raise .illegalCommand))) := by
  unfold step at h
  split at h
  · refine ⟨‹_›, ?_⟩
    unfold State.accept at h
    cases hp : s.port with
    | nil =>
      rw [hp] at h
      simp only [Host.Outcome.next.injEq] at h
      exact .inl ⟨rfl, h.symm⟩
    | cons c rest =>
      rw [hp] at h
      refine .inr ⟨c, rest, rfl, ?_⟩
      simp only [runCommand] at h
      cases hd : decode c with
      | ok i => rw [hd] at h; exact .inl ⟨i, rfl, h⟩
      | error e =>
        rw [hd] at h
        simp only [Host.Outcome.next.injEq] at h
        exact .inr ⟨⟨e, rfl⟩, h.symm⟩
  · cases h

/-- A step that accepts a command which decodes runs it (R21). -/
theorem step_of_decode {s : State} {c : Command} {rest : List Command} {i : Instr} (hc : s.config.Legal)
    (hp : s.port = c :: rest) (hd : decode c = .ok i) : step s = exec i { s with port := rest } := by
  rw [step, if_pos hc]
  simp only [State.accept, hp, runCommand, hd]

end Sys2Proof.Machine
end

