-- ==== Sys2Proof/Laws/PerInstr.lean ====
section
/-! SUPPORT. A family about every instruction as syntax: the opcode and the must-be-zero fields of its encoded
command word (30_encoding.md R71, R76). -/

namespace Sys2Proof

/-- The operation of an instruction. -/
def Instr.opcode : Instr → Opcode
  | .fpFromRaw _ _ => .fpFromRaw
  | .fpFromReal _ _ => .fpFromReal
  | .fpToReal _ _ => .fpToReal
  | .fpToFloat _ _ => .fpToFloat
  | .fpAdd _ _ _ => .fpAdd
  | .fpSub _ _ _ => .fpSub
  | .fpMul _ _ _ => .fpMul
  | .fpDiv _ _ _ => .fpDiv
  | .fpMod _ _ _ => .fpMod
  | .fpConvert _ _ _ => .fpConvert
  | .fpEq _ _ _ => .fpEq
  | .fpNe _ _ _ => .fpNe
  | .fpLt _ _ _ => .fpLt
  | .fpLe _ _ _ => .fpLe
  | .fpGt _ _ _ => .fpGt
  | .fpGe _ _ _ => .fpGe
  | .svmSetAngle _ => .svmSetAngle
  | .svmMove _ => .svmMove
  | .svmUpdate _ _ => .svmUpdate
  | .tblRead _ => .tblRead

namespace Laws

/-- The must-be-zero fields of a form (R71). -/
def MustBeZero : Form → CmdWord → Prop
  | .untyped, w => w.extractLsb' 24 8 = 0#8 ∧ w.extractLsb' 6 18 = 0#18
  | .typed, w => w.extractLsb' 24 8 = 0#8 ∧ w.extractLsb' 15 9 = 0#9
  | .convert, w => w.extractLsb' 24 8 = 0#8

/-- An encoded word carries the opcode of its instruction, and zeros where its form must have them. -/
def WordFields.Statement (i : Instr) : Prop :=
  Opcode.ofBits ((encode i).cmd.extractLsb' 0 6) = some i.opcode ∧ MustBeZero i.opcode.form (encode i).cmd

theorem untypedWord_fields (op : Opcode) (hf : op.form = .untyped) :
    Opcode.ofBits (op.untypedWord.extractLsb' 0 6) = some op ∧ MustBeZero op.form op.untypedWord := by
  rw [hf]
  exact ⟨by rw [Opcode.untypedWord, cmdWord_opcode, Opcode.ofBits_bits], cmdWord_reserved _ _ _, cmdWord_untyped _⟩

theorem typedWord_fields (op : Opcode) (t : FxType) (hf : op.form = .typed) :
    Opcode.ofBits ((op.typedWord t).extractLsb' 0 6) = some op ∧ MustBeZero op.form (op.typedWord t) := by
  rw [hf]
  exact ⟨by rw [Opcode.typedWord, cmdWord_opcode, Opcode.ofBits_bits], cmdWord_reserved _ _ _,
    cmdWord_secondType _ _ _⟩

theorem convertWord_fields (op : Opcode) (t t2 : FxType) (hf : op.form = .convert) :
    Opcode.ofBits ((op.convertWord t t2).extractLsb' 0 6) = some op ∧ MustBeZero op.form (op.convertWord t t2) := by
  rw [hf]
  exact ⟨by rw [Opcode.convertWord, cmdWord_opcode, Opcode.ofBits_bits], cmdWord_reserved _ _ _⟩

theorem WordFields.fpFromRaw (t : FxType) (a : Word) : WordFields.Statement (.fpFromRaw t a) :=
  typedWord_fields .fpFromRaw t rfl

theorem WordFields.fpFromReal (t : FxType) (a : Word) : WordFields.Statement (.fpFromReal t a) :=
  typedWord_fields .fpFromReal t rfl

theorem WordFields.fpToReal (t : FxType) (a : Word) : WordFields.Statement (.fpToReal t a) :=
  typedWord_fields .fpToReal t rfl

theorem WordFields.fpToFloat (t : FxType) (a : Word) : WordFields.Statement (.fpToFloat t a) :=
  typedWord_fields .fpToFloat t rfl

theorem WordFields.fpAdd (t : FxType) (a : Word) (b : Word) : WordFields.Statement (.fpAdd t a b) :=
  typedWord_fields .fpAdd t rfl

theorem WordFields.fpSub (t : FxType) (a : Word) (b : Word) : WordFields.Statement (.fpSub t a b) :=
  typedWord_fields .fpSub t rfl

theorem WordFields.fpMul (t : FxType) (a : Word) (b : Word) : WordFields.Statement (.fpMul t a b) :=
  typedWord_fields .fpMul t rfl

theorem WordFields.fpDiv (t : FxType) (a : Word) (b : Word) : WordFields.Statement (.fpDiv t a b) :=
  typedWord_fields .fpDiv t rfl

theorem WordFields.fpMod (t : FxType) (a : Word) (b : Word) : WordFields.Statement (.fpMod t a b) :=
  typedWord_fields .fpMod t rfl

theorem WordFields.fpConvert (t : FxType) (t2 : FxType) (a : Word) : WordFields.Statement (.fpConvert t t2 a) :=
  convertWord_fields .fpConvert t t2 rfl

theorem WordFields.fpEq (t : FxType) (a : Word) (b : Word) : WordFields.Statement (.fpEq t a b) :=
  typedWord_fields .fpEq t rfl

theorem WordFields.fpNe (t : FxType) (a : Word) (b : Word) : WordFields.Statement (.fpNe t a b) :=
  typedWord_fields .fpNe t rfl

theorem WordFields.fpLt (t : FxType) (a : Word) (b : Word) : WordFields.Statement (.fpLt t a b) :=
  typedWord_fields .fpLt t rfl

theorem WordFields.fpLe (t : FxType) (a : Word) (b : Word) : WordFields.Statement (.fpLe t a b) :=
  typedWord_fields .fpLe t rfl

theorem WordFields.fpGt (t : FxType) (a : Word) (b : Word) : WordFields.Statement (.fpGt t a b) :=
  typedWord_fields .fpGt t rfl

theorem WordFields.fpGe (t : FxType) (a : Word) (b : Word) : WordFields.Statement (.fpGe t a b) :=
  typedWord_fields .fpGe t rfl

theorem WordFields.svmSetAngle (a : Word) : WordFields.Statement (.svmSetAngle a) :=
  untypedWord_fields .svmSetAngle rfl

theorem WordFields.svmMove (a : Word) : WordFields.Statement (.svmMove a) :=
  untypedWord_fields .svmMove rfl

theorem WordFields.svmUpdate (t : FxType) (a : Word) : WordFields.Statement (.svmUpdate t a) :=
  typedWord_fields .svmUpdate t rfl

theorem WordFields.tblRead (a : Word) : WordFields.Statement (.tblRead a) :=
  untypedWord_fields .tblRead rfl

end Laws
end Sys2Proof
end

