-- ==== Sys2Proof/Laws/Step.lean ====
section
/-! SUPPORT. Facts about whole commands and runs that proofs share: the status code of each ending, what no command
touches, the derived sector, and the equations of a run. -/

namespace Sys2Proof.Machine

/-! ## Status codes of the endings -/

@[simp] theorem statusOk_code : (statusOk.extractLsb' 0 3).toNat = 0 := rfl

@[simp] theorem statusOf_code (e : CommandFault) : ((statusOf e).extractLsb' 0 3).toNat = e.code := by
  cases e <;> rfl

theorem statusOk_reserved : statusOk.extractLsb' 3 5 = 0#5 := by decide

theorem statusOf_reserved (e : CommandFault) : (statusOf e).extractLsb' 3 5 = 0#5 := by cases e <;> rfl

theorem CommandFault.code_ne_zero (e : CommandFault) : e.code ≠ 0 := by cases e <;> decide

theorem CommandFault.code_le (e : CommandFault) : e.code ≤ 5 := by cases e <;> decide

/-- Raising records its own bit (R223). -/
theorem setSticky_self (f : BitVec 8) (e : CommandFault) : (setSticky f e).getLsbD e.code = true := by
  cases e <;> simp [setSticky, CommandFault.code]

/-- Raising clears no bit (R225). -/
theorem setSticky_keeps {f : BitVec 8} {k : Nat} (e : CommandFault) (h : f.getLsbD k = true) :
    (setSticky f e).getLsbD k = true := by
  simp [setSticky, h]

/-- Raising sets no reserved bit (R33). -/
theorem setSticky_legal {f : BitVec 8} (e : CommandFault) (h : f &&& 0xC1#8 = 0#8) :
    setSticky f e &&& 0xC1#8 = 0#8 := by
  revert h; revert f; cases e <;> decide

/-! ## What no command touches -/

/-- No command changes the configuration, and none touches the port. -/
theorem exec_keeps {i : Instr} {s t : State} (h : exec i s = .next t) : t.config = s.config ∧ t.port = s.port := by
  rcases exec_cases i s with (⟨v, hv⟩ | ⟨e, hv⟩) | ⟨x, hv⟩ | ⟨a, b, c, hv⟩ | ⟨r, hv⟩ <;>
    rw [hv] at h <;> cases h <;> exact ⟨rfl, rfl⟩

/-- No step changes the configuration. -/
theorem step_keeps_config {s t : State} (h : step s = .next t) : t.config = s.config := by
  obtain ⟨-, ⟨-, rfl⟩ | ⟨c, rest, -, ⟨i, -, hx⟩ | ⟨-, rfl⟩⟩⟩ := step_cases h
  · rfl
  · exact (exec_keeps hx).1
  · rfl

/-! ## The derived sector (R24, R25, R26) -/

/-- In range, the 32-bit pattern of ANGLE and the integer it stands for agree. -/
theorem angle_toInt {s : State} (h : s.AngleInRange) : s.angle.toInt = s.angle.toNat := by
  obtain ⟨h0, -⟩ := h
  have hlt := s.angle.isLt
  rw [BitVec.toInt_eq_toNat_cond] at h0 ⊢
  split at h0
  · rw [if_pos ‹_›]
  · omega

theorem sectorAngle_toNat (s : State) (hc : s.config.Legal) :
    s.sectorAngle.toNat = s.angle.toNat % s.config.steps := by
  have hle := domain_le hc
  have := steps_pos s.config
  rw [State.sectorAngle, BitVec.toNat_and, BitVec.toNat_ofNat, Nat.mod_eq_of_lt (by unfold Config.domain at hle; omega)]
  exact Nat.and_two_pow_sub_one_eq_mod _ _

theorem sectorAngle_lt (s : State) (hc : s.config.Legal) : s.sectorAngle.toNat < s.config.steps := by
  rw [sectorAngle_toNat s hc]
  exact Nat.mod_lt _ (steps_pos _)

theorem sector_toNat (s : State) (ha : s.AngleInRange) :
    s.sector.toNat = s.angle.toNat / s.config.steps ∧ s.angle.toNat / s.config.steps ≤ 5 := by
  have h1 := ha.2
  rw [angle_toInt ha] at h1
  have hlt : s.angle.toNat < s.config.steps * 6 := by unfold Config.domain at h1; omega
  have h5 : s.angle.toNat / s.config.steps < 6 := Nat.div_lt_of_lt_mul hlt
  refine ⟨?_, by omega⟩
  rw [State.sector, BitVec.toNat_setWidth, BitVec.toNat_ushiftRight, Nat.shiftRight_eq_div_pow]
  exact Nat.mod_eq_of_lt (by unfold Config.steps at h5; omega)

/-! ## Runs -/

/-- A run goes on from the next state of its first step. -/
theorem run_succ_of_next {s t : State} (n : Nat) (h : step s = .next t) : core.run (n + 1) s = core.run n t := by
  have h' : core.step s = .next t := h
  simp only [Host.Core.run, h']

theorem run_succ_of_fault {s : State} (n : Nat) {r : Fault} (h : step s = .fault r) :
    core.run (n + 1) s = .fault r := by
  have h' : core.step s = .fault r := h
  simp only [Host.Core.run, h']

theorem run_succ_of_refused {s : State} (n : Nat) {r : Refusal} (h : step s = .refused r) :
    core.run (n + 1) s = .refused r := by
  have h' : core.step s = .refused r := h
  simp only [Host.Core.run, h']

/-- A property that every step keeps holds after every run (one induction for all such claims). -/
theorem run_keeps {P : State → Prop} (hstep : ∀ s t, P s → step s = .next t → P t) (n : Nat) :
    ∀ s t : State, P s → core.run n s = .next t → P t := by
  induction n with
  | zero => intro s t hs h; cases h; exact hs
  | succ n ih =>
    intro s t hs h
    cases hx : step s with
    | next u => rw [run_succ_of_next n hx] at h; exact ih u t (hstep s u hs hx) h
    | fault r => rw [run_succ_of_fault n hx] at h; cases h
    | refused r => rw [run_succ_of_refused n hx] at h; cases h

end Sys2Proof.Machine
end

