-- ==== Sys2Proof/Tests/Slice0.lean ====
section
/-! SUPPORT. The model's own tests: expected values are from 95_test_vectors.md or worked by hand from the rules,
never from the model; and, for every statement with hypotheses, a theorem that shows states and operands meeting
them. -/

namespace Sys2Proof.Tests

open Sys2Proof.Machine Sys2Proof.Claims

/-- One field, or a few, of a next state. -/
def after {α : Type} (o : Outcome) (f : State → α) : Option α :=
  match o with
  | .next t => some (f t)
  | .fault _ => none
  | .refused _ => none

/-- A run's next state, looked at the same way. -/
def afterRun {α : Type} (n : Nat) (s : State) (f : State → α) : Option α := after (Sys2Proof.core.run n s) f

/-- The three channels. -/
def channels (s : State) : Nat × Nat × Nat := (s.chn1.toNat, s.chn2.toNat, s.chn3.toNat)

/-- A block of the vectors: P, SCALE_MAX, variant, tie; OUT_RESET = ZERO. -/
def block (p sm : Nat) (v : TableVariant) (t : TableTie) (angle : Nat) : State :=
  { State.afterReset ⟨p, sm, v, t, .zero⟩ with angle := BitVec.ofNat 32 angle }

/-- The reset state with commands issued. -/
def issued (cs : List Command) : State := { State.reset with port := cs }

def s8q4 : FxType := ⟨.w8, true, 4⟩
def u8q4 : FxType := ⟨.w8, false, 4⟩
def s16q8 : FxType := ⟨.w16, true, 8⟩
def s32q16 : FxType := ⟨.w32, true, 16⟩
def u16q15 : FxType := ⟨.w16, false, 15⟩

/-! ## WellFormed: an ill-formed term for each check -/

theorem test_wf_frac_over_w8 : (Instr.fpAdd ⟨.w8, true, 9⟩ 0 0).wellFormed = false := by decide
theorem test_wf_frac_over_w16 : (Instr.fpAdd ⟨.w16, true, 17⟩ 0 0).wellFormed = false := by decide
theorem test_wf_frac_over_w32 : (Instr.fpAdd ⟨.w32, false, 33⟩ 0 0).wellFormed = false := by decide
theorem test_wf_frac_over_63 : (Instr.svmUpdate ⟨.w64, false, 64⟩ 0).wellFormed = false := by decide
theorem test_wf_second_type : (Instr.fpConvert s32q16 ⟨.w8, true, 9⟩ 0).wellFormed = false := by decide
theorem test_wf_first_type : (Instr.fpConvert ⟨.w8, true, 9⟩ s32q16 0).wellFormed = false := by decide
theorem test_wf_largest_frac : (Instr.fpToReal ⟨.w64, false, 63⟩ 0).wellFormed = true := by decide

/-! ## Decode: a word written out from the spec's encoding for every constructor (R71, R76) -/

-- Fields from the left: RSV, second descriptor, F, S, width code, opcode.
theorem test_decode_fpFromRaw : decodeTableWord 32 0b00000000_000000000_000100_1_00_000001 =
    some (.fpFromRaw ⟨.w8, true, 4⟩ 0) := by decide
theorem test_decode_fpFromReal : decodeTableWord 32 0b00000000_000000000_001000_1_01_000010 =
    some (.fpFromReal ⟨.w16, true, 8⟩ 0) := by decide
theorem test_decode_fpToReal : decodeTableWord 32 0b00000000_000000000_111111_0_11_000011 =
    some (.fpToReal ⟨.w64, false, 63⟩ 0) := by decide
theorem test_decode_fpToFloat : decodeTableWord 32 0b00000000_000000000_000000_1_10_000100 =
    some (.fpToFloat ⟨.w32, true, 0⟩ 0) := by decide
theorem test_decode_fpAdd : decodeTableWord 32 0b00000000_000000000_010000_1_10_001000 =
    some (.fpAdd ⟨.w32, true, 16⟩ 0 0) := by decide
theorem test_decode_fpSub : decodeTableWord 32 0b00000000_000000000_001000_1_01_001001 =
    some (.fpSub ⟨.w16, true, 8⟩ 0 0) := by decide
theorem test_decode_fpMul : decodeTableWord 32 0b00000000_000000000_001000_0_00_001010 =
    some (.fpMul ⟨.w8, false, 8⟩ 0 0) := by decide
theorem test_decode_fpDiv : decodeTableWord 32 0b00000000_000000000_001000_0_01_001011 =
    some (.fpDiv ⟨.w16, false, 8⟩ 0 0) := by decide
theorem test_decode_fpMod : decodeTableWord 32 0b00000000_000000000_000000_1_00_001100 =
    some (.fpMod ⟨.w8, true, 0⟩ 0 0) := by decide
theorem test_decode_fpEq : decodeTableWord 32 0b00000000_000000000_000100_1_00_010000 =
    some (.fpEq ⟨.w8, true, 4⟩ 0 0) := by decide
theorem test_decode_fpNe : decodeTableWord 32 0b00000000_000000000_000100_0_00_010001 =
    some (.fpNe ⟨.w8, false, 4⟩ 0 0) := by decide
theorem test_decode_fpLt : decodeTableWord 32 0b00000000_000000000_001000_1_01_010010 =
    some (.fpLt ⟨.w16, true, 8⟩ 0 0) := by decide
theorem test_decode_fpLe : decodeTableWord 32 0b00000000_000000000_010000_1_10_010011 =
    some (.fpLe ⟨.w32, true, 16⟩ 0 0) := by decide
theorem test_decode_fpGt : decodeTableWord 32 0b00000000_000000000_011111_0_10_010100 =
    some (.fpGt ⟨.w32, false, 31⟩ 0 0) := by decide
theorem test_decode_fpGe : decodeTableWord 32 0b00000000_000000000_111110_1_11_010101 =
    some (.fpGe ⟨.w64, true, 62⟩ 0 0) := by decide
theorem test_decode_svmUpdate : decodeTableWord 32 0b00000000_000000000_001111_0_01_100010 =
    some (.svmUpdate ⟨.w16, false, 15⟩ 0) := by decide
theorem test_decode_fpConvert : decodeTableWord 32 0b00000000_001000_1_01_010000_1_10_001101 =
    some (.fpConvert ⟨.w32, true, 16⟩ ⟨.w16, true, 8⟩ 0) := by decide
theorem test_decode_svmSetAngle : decodeTableWord 32 0b00000000_000000000_000000000_100000 =
    some (.svmSetAngle 0) := by decide
theorem test_decode_svmMove : decodeTableWord 32 0b00000000_000000000_000000000_100001 =
    some (.svmMove 0) := by decide
theorem test_decode_tblRead : decodeTableWord 32 0b00000000_000000000_000000000_100011 =
    some (.tblRead 0) := by decide

/-- The operand words follow CMD (R80): OPA above it, OPB above OPA. -/
theorem test_decode_operand_words :
    decodeTableWord 160 (0x2188 + 0x18000 * 2 ^ 32 + 0x8000 * 2 ^ 96) =
      some (.fpAdd s32q16 0x18000#64 0x8000#64) := by decide

/-- Illegal words of V5, each by its own check. -/
theorem test_decode_illegal :
    decode ⟨0x0000003F#32, 0, 0⟩ = .error .reservedOpcode ∧
    decode ⟨0x80002188#32, 0, 0⟩ = .error .reservedBits ∧
    decode ⟨0x00800020#32, 0, 0⟩ = .error .untypedBits ∧
    decode ⟨0x0000A188#32, 0, 0⟩ = .error .secondTypeBits ∧
    decode ⟨0x00002348#32, 0, 0⟩ = .error .illegalType ∧
    decode ⟨0x0026218D#32, 0, 0⟩ = .error .illegalSecondType :=
  ⟨rfl, rfl, rfl, rfl, rfl, rfl⟩

/-! ## One step of each instruction (95_test_vectors.md V2 to V4) -/

theorem test_fpFromRaw_signed :
    after (exec (.fpFromRaw s8q4 0x1FF) State.reset) (·.res) = some 0xFFFFFFFFFFFFFFFF#64 := by decide
theorem test_fpFromRaw_unsigned :
    after (exec (.fpFromRaw u8q4 0x1FF) State.reset) (·.res) = some 0xFF#64 := by decide
theorem test_fpFromReal_tie_away :
    after (exec (.fpFromReal s16q8 0xBFF0080000000000) State.reset) (·.res) = some 0xFFFFFFFFFFFFFEFF#64 := by decide
theorem test_fpFromReal_nan :
    after (exec (.fpFromReal s16q8 0x7FF8000000000000) State.reset) (fun s => (s.res, s.status, s.faults)) = some (0#64, 3#8, 0x08#8) := by decide
theorem test_fpToReal_tie_even :
    after (exec (.fpToReal ⟨.w64, true, 0⟩ 0x20000000000001) State.reset) (·.res) = some 0x4340000000000000#64 := by decide
theorem test_fpToReal_carry :
    after (exec (.fpToReal ⟨.w64, false, 63⟩ 0xFFFFFFFFFFFFFFFF) State.reset) (·.res) = some 0x4000000000000000#64 := by decide
theorem test_fpToFloat_tie_even :
    after (exec (.fpToFloat ⟨.w32, true, 0⟩ 0x1000003) State.reset) (·.res) = some 0x4B800002#64 := by decide
theorem test_fpToFloat_negative :
    after (exec (.fpToFloat s16q8 0xFFFFFFFFFFFFFE80) State.reset) (·.res) = some 0xBFC00000#64 := by decide
theorem test_fpAdd_wraps :
    after (exec (.fpAdd s8q4 0x7F 1) State.reset) (·.res) = some 0xFFFFFFFFFFFFFF80#64 := by decide
theorem test_fpSub_wraps :
    after (exec (.fpSub ⟨.w8, false, 0⟩ 0 1) State.reset) (·.res) = some 0xFF#64 := by decide
theorem test_fpMul_floors :
    after (exec (.fpMul s32q16 0xFFFFFFFFFFFFFFFD 0x8000) State.reset) (·.res) = some 0xFFFFFFFFFFFFFFFE#64 := by decide
theorem test_fpMul_exact_product :
    after (exec (.fpMul ⟨.w64, true, 32⟩ 0x4000000000000000 4) State.reset) (·.res) = some 0x100000000#64 := by decide
theorem test_fpDiv_truncates :
    after (exec (.fpDiv s8q4 0xFFFFFFFFFFFFFFF0 0x30) State.reset) (·.res) = some 0xFFFFFFFFFFFFFFFB#64 := by decide
theorem test_fpDiv_by_zero :
    after (exec (.fpDiv s8q4 0x10 0x100) State.reset) (fun s => (s.res, s.status, s.faults)) = some (0#64, 2#8, 0x04#8) := by decide
theorem test_fpMod_dividend_sign :
    after (exec (.fpMod ⟨.w8, true, 0⟩ 0xFFFFFFFFFFFFFFF9 3) State.reset) (·.res) = some 0xFFFFFFFFFFFFFFFF#64 := by decide
theorem test_fpMod_by_zero :
    after (exec (.fpMod s8q4 5 0) State.reset) (·.status) = some 2#8 := by decide
theorem test_fpConvert_floors :
    after (exec (.fpConvert s16q8 ⟨.w8, false, 0⟩ 0xFFFFFFFFFFFFFE80) State.reset) (·.res) = some 0xFE#64 := by decide
theorem test_fpConvert_left_wraps :
    after (exec (.fpConvert ⟨.w8, true, 0⟩ s8q4 0x64) State.reset) (·.res) = some 0x40#64 := by decide
theorem test_fpEq_low_bits :
    after (exec (.fpEq s8q4 0x1FF 0xFF) State.reset) (·.res) = some 1#64 := by decide
theorem test_fpNe_differs :
    after (exec (.fpNe s8q4 0xFF 0x01) State.reset) (·.res) = some 1#64 := by decide
theorem test_fpLt_signed :
    after (exec (.fpLt s8q4 0xFF 0x01) State.reset) (·.res) = some 1#64 := by decide
theorem test_fpLt_unsigned :
    after (exec (.fpLt u8q4 0xFF 0x01) State.reset) (·.res) = some 0#64 := by decide
theorem test_fpLe_equal :
    after (exec (.fpLe s16q8 0x100 0x100) State.reset) (·.res) = some 1#64 := by decide
theorem test_fpGt_equal :
    after (exec (.fpGt s16q8 0x100 0x100) State.reset) (·.res) = some 0#64 := by decide
theorem test_fpGe_unsigned :
    after (exec (.fpGe u8q4 0xFF 0x01) State.reset) (·.res) = some 1#64 := by decide
theorem test_svmSetAngle_negative :
    after (exec (.svmSetAngle 0xFFFFFFFFFFFFF3FF) (block 8 1000 .rom .halfDown 0)) (·.angle) = some 1535#32 := by decide
theorem test_svmSetAngle_upper_bits_ignored :
    after (exec (.svmSetAngle 0x100000005) (block 8 1000 .rom .halfDown 0)) (·.angle) = some 5#32 := by decide
theorem test_svmMove_wraps_below_zero :
    after (exec (.svmMove 0xFFFFFFFFFFFFFFFA) (block 2 1000 .rom .halfDown 5)) (fun s => (s.angle, s.sector, s.sectorAngle)) = some (23#32, 5#3, 3#32) := by decide
theorem test_svmMove_large_delta :
    after (exec (.svmMove 0x7FFFFFFF) (block 8 1000 .rom .halfDown 1535)) (·.angle) = some 510#32 := by decide
theorem test_svmUpdate_rom :
    after (exec (.svmUpdate u16q15 0x8000) (block 8 1000 .rom .halfDown 311)) channels = some (22, 978, 755) := by decide
theorem test_svmUpdate_ram :
    after (exec (.svmUpdate u16q15 0x8000) (block 8 1000 .ram .halfDown 311)) channels = some (20, 980, 753) := by decide
theorem test_tblRead_last_rom :
    after (exec (.tblRead 256) (block 8 1000 .rom .halfDown 0)) (fun s => (s.res, s.status)) = some (0#64, 0#8) := by decide
theorem test_tblRead_outside_ram :
    after (exec (.tblRead 256) (block 8 1000 .ram .halfDown 0)) (fun s => (s.status, s.faults)) = some (4#8, 0x10#8) := by decide

/-- A step fetches from the port: the first command after reset. -/
theorem test_step_first_command :
    after (step (State.reset.withFetchWord 32 0x1E62)) channels = some (500, 500, 500) := by decide

/-- An illegal descriptor wins over a zero divisor (V5). -/
theorem test_step_illegal_before_operand :
    after (step (issued [⟨0x0000130B#32, 0, 0⟩])) (fun s => (s.status, s.faults)) = some (1#8, 0x02#8) := by decide

/-- The tie of the 30 degree entry (V4). -/
theorem test_table_tie :
    tableEntry ⟨2, 1001, .rom, .halfDown, .zero⟩ 2 = 500 ∧ tableEntry ⟨2, 1001, .rom, .halfUp, .zero⟩ 2 = 501 := by
  decide

/-- CONFIG of a RAM block, from the field table of R34. -/
theorem test_configWord : configWord ⟨8, 1000, .ram, .halfDown, .zero⟩ = 0x03E80728#32 := by decide

/-- A register on a byte-addressed bus (R53). -/
theorem test_bytes_little_endian :
    (block 2 1000 .rom .halfDown 0x12).hostReadBytes .angle = some [0x12#8, 0#8, 0#8, 0#8] := by decide

/-- A reset of a running block (R260): registers cleared, FAULTS too (R225). -/
theorem test_assertReset :
    (fun s : State => (s.angle, s.res, s.status, s.faults, s.chn3))
      { State.reset with angle := 7, res := 9, status := 5, faults := 0x3E, chn3 := 983 }.assertReset =
      (0#32, 0#64, 0#8, 0#8, 0#32) := by decide

/-- The forms of a decimal real that the model does not read (log entry 7). -/
theorem test_assemble_real_form :
    assemble "fp.from_real.s16q8 1e3" = none ∧ assemble "fp.from_real.s16q8 .5" = none ∧
    assemble "fp.from_real.s16q8 5." = none ∧
    assemble "fp.from_real.s16q8 0.5" = some [⟨0x1142#32, 0x3FE0000000000000#64, 0⟩] := by decide

/-- The assembler's column of V2.2 and V2.7. -/
theorem test_assemble_real : assemble "fp.from_real.s16q8 -1.001953125" =
    some [⟨0x1142#32, 0xBFF0080000000000#64, 0⟩] := by decide
theorem test_assemble_convert : assemble "fp.cvt.s32q16.s16q8 0x18000" =
    some [⟨0x22A18D#32, 0x18000#64, 0⟩] := by decide

/-! ## Witnesses: states and operands that meet the hypotheses of each statement, at the ends of its ranges -/

theorem witness_inv : State.reset.Inv := by decide
theorem witness_inv_largest_angle : (block 16 65535 .ram .halfUp 393215).Inv := by decide
theorem witness_inv_after_fault : { State.reset with status := 5#8, faults := 0x20#8 }.Inv := by decide

theorem witness_legal_ends :
    (⟨1, 1, .rom, .halfDown, .zero⟩ : Config).Legal ∧ (⟨16, 65535, .ram, .halfUp, .undefined⟩ : Config).Legal := by
  decide

theorem test_step_unadmitted_configuration :
    step { State.reset with config := ⟨0, 1000, .rom, .halfDown, .zero⟩ } = .refused .configurationNotAdmitted ∧
    step { State.reset with config := ⟨17, 1000, .rom, .halfDown, .zero⟩ } = .refused .configurationNotAdmitted ∧
    step { State.reset with config := ⟨2, 0, .rom, .halfDown, .zero⟩ } = .refused .configurationNotAdmitted ∧
    step { State.reset with config := ⟨2, 65536, .rom, .halfDown, .zero⟩ } = .refused .configurationNotAdmitted :=
  ⟨rfl, rfl, rfl, rfl⟩

theorem witness_DecodeOfEncodeIsIdentity :
    (Instr.fpConvert ⟨.w8, false, 8⟩ ⟨.w64, true, 63⟩ 0xFFFFFFFFFFFFFFFF#64).wellFormed = true := by decide

theorem witness_EncodeOfDecodeIsTheWord :
    decode ⟨0x00007EC3#32, 1#64, 7#64⟩ = .ok (.fpToReal ⟨.w64, false, 63⟩ 1#64) ∧
    decode ⟨0x00002188#32, 1#64, 7#64⟩ = .ok (.fpAdd s32q16 1#64 7#64) ∧
    readsOpb 0x08 = true ∧ readsOpb 0x0C = true ∧ readsOpb 0x10 = true ∧ readsOpb 0x15 = true ∧
    readsOpb 0x04 = false ∧ readsOpb 0x0D = false ∧ readsOpb 0x22 = false :=
  ⟨rfl, rfl, rfl, rfl, rfl, rfl, rfl, rfl, rfl⟩

theorem witness_DecodeMeetsMatchAndMask :
    decodeWord 0x00000023#32 = .ok (.tblRead, ⟨.w8, false, 0⟩, ⟨.w8, false, 0⟩) ∧
    decodeWord 0x00004188#32 = .ok (.fpAdd, ⟨.w32, true, 32⟩, ⟨.w8, false, 0⟩) ∧
    decodeWord 0x0022A18D#32 = .ok (.fpConvert, s32q16, s16q8) := ⟨rfl, rfl, rfl⟩

theorem witness_ReservedOpcodesAreIllegal :
    State.reset.config.Legal ∧ (0x00002140#32).toNat % 64 = 0x00 ∧ (0x0000000F#32).toNat % 64 = 0x0F ∧
    (0x00000016#32).toNat % 64 = 0x16 ∧ (0xFFFFFFDF#32).toNat % 64 = 0x1F ∧ (0x00000024#32).toNat % 64 = 0x24 ∧
    (0xFFFFFFFF#32).toNat % 64 = 0x3F ∧ (issued [⟨0x0000003F#32, 0, 0⟩]).port = ⟨0x0000003F#32, 0, 0⟩ :: [] := by
  decide

theorem witness_MustBeZeroBitsAreIllegal :
    decode ⟨0x00FF918D#32, 0, 0⟩ = .ok (.fpConvert ⟨.w32, true, 8⟩ ⟨.w64, true, 63⟩ 0) ∧
    decode ⟨0x00007FC8#32, 0, 0⟩ = .ok (.fpAdd ⟨.w64, true, 63⟩ 0 0) ∧
    decode ⟨0x00000023#32, 0, 0⟩ = .ok (.tblRead 0) := ⟨rfl, rfl, rfl⟩

theorem witness_IgnoredOperandBitsHaveNoEffect :
    decode ⟨0x00000021#32, 3#64, 0#64⟩ = .ok (.svmMove 3#64) ∧
    decode ⟨0x00000021#32, 3#64, 9#64⟩ = .ok (.svmMove 3#64) ∧
    (0x1FF#64).toNat % 2 ^ s8q4.width.bits = (0xFF#64).toNat % 2 ^ s8q4.width.bits ∧
    (0x100000005#64).toNat % 2 ^ 32 = (5#64).toNat % 2 ^ 32 := ⟨rfl, rfl, by decide, by decide⟩

theorem witness_StepRunsTheDecodedCommand :
    (issued [⟨0x00000021#32, 5#64, 0⟩]).config.Legal ∧
    (issued [⟨0x00000021#32, 5#64, 0⟩]).port = ⟨0x00000021#32, 5#64, 0⟩ :: [] ∧
    decode ⟨0x00000021#32, 5#64, 0⟩ = .ok (.svmMove 5#64) := ⟨by decide, rfl, rfl⟩

theorem witness_IllegalCommandOnlySetsStatusAndFaults :
    (issued [⟨0x01002188#32, 0, 0⟩]).config.Legal ∧
    (issued [⟨0x01002188#32, 0, 0⟩]).port = ⟨0x01002188#32, 0, 0⟩ :: [] ∧
    decode ⟨0x01002188#32, 0, 0⟩ = .error .reservedBits := ⟨by decide, rfl, rfl⟩

theorem witness_IdleBlockKeepsItsState : State.reset.config.Legal ∧ State.reset.port = [] := by decide

theorem witness_CommandsTakeEffectInOrder :
    State.reset.config.Legal ∧
    afterRun 2 (issued [⟨0x21#32, 5#64, 0⟩, ⟨0x0#32, 0, 0⟩]) (fun t => (t.angle, t.faults)) =
      some (5#32, 0x02#8) := by decide

theorem witness_ChannelsHoldNoValueUntilUpdate :
    (⟨2, 1000, .rom, .halfDown, .undefined⟩ : Config).outReset = .undefined ∧ State.reset.config.outReset = .zero ∧
    after (exec (.svmUpdate u16q15 0x8000) { State.reset with chnValid := false }) (·.chnValid) = some true ∧
    after (exec (.svmUpdate s16q8 0xFFFF) { State.reset with chnValid := false }) (·.chnValid) = some false := by
  decide

/-- A reset from the start, and one of a running block: both kinds that `JustReset` names. -/
theorem witness_JustReset :
    Config.example.Legal ∧ JustReset Config.example State.reset ∧
    JustReset Config.example { issued [⟨0x21#32, 1#64, 0⟩] with angle := 7, res := 9, faults := 0x3E#8 }.assertReset :=
  ⟨by decide, .inl rfl, .inr ⟨_, rfl, rfl⟩⟩

theorem witness_EveryStepKeepsInvariant :
    (issued [⟨0x21#32, 0xFFFFFFFFFFFFFFFF#64, 0⟩]).Inv ∧
    after (step (issued [⟨0x21#32, 0xFFFFFFFFFFFFFFFF#64, 0⟩])) (·.angle) = some 23#32 := by decide

theorem witness_FaultsArePrecise :
    (issued [⟨0x0000090B#32, 1#64, 0⟩]).port = ⟨0x0000090B#32, 1#64, 0⟩ :: [] ∧
    after (step (issued [⟨0x0000090B#32, 1#64, 0⟩])) (·.code) = some 2 ∧
    after (step (issued [⟨0x0000090B#32, 1#64, 1⟩])) (·.code) = some 0 ∧
    after (step (issued [⟨0#32, 0, 0⟩])) (·.code) = some 1 := by decide

theorem witness_FaultsAreSticky :
    ({ issued [⟨0x23#32, 9#64, 0⟩] with faults := 0x02#8 }).faults.getLsbD 1 = true ∧
    after (step { issued [⟨0x23#32, 9#64, 0⟩] with faults := 0x02#8 }) (·.faults) = some 0x12#8 := by decide

theorem witness_FaultFreeEndMeansNoCommandFaulted :
    (issued [⟨0x21#32, 1#64, 0⟩, ⟨0x23#32, 4#64, 0⟩]).Inv ∧
    afterRun 2 (issued [⟨0x21#32, 1#64, 0⟩, ⟨0x23#32, 4#64, 0⟩]) (·.faults) = some 0#8 := by decide

theorem witness_ConfigurationIsConstant :
    after (step (issued [⟨0x20#32, 25#64, 0⟩])) (fun t => (t.config, t.angle)) = some (Config.example, 1#32) := by
  decide

theorem witness_OnlyNamedCommandsWrite :
    writesAngle (.svmUpdate u16q15 0x8000) = false ∧
    after (exec (.svmUpdate u16q15 0x8000) State.reset) (·.angle) = some 0#32 ∧
    isUpdate (.svmMove 1) = false ∧ after (exec (.svmMove 1) State.reset) channels = some (0, 0, 0) ∧
    isUpdate (.svmUpdate s16q8 0xFFFF) = true ∧
    after (exec (.svmUpdate s16q8 0xFFFF) State.reset) (·.code) = some 5 := by decide

theorem witness_SvmAndFaultingCommandsKeepRes :
    after (exec (.fpMod s8q4 1 0) { State.reset with res := 7 }) (fun t => (t.code, t.res)) = some (2, 7#64) ∧
    writesAngle (.svmSetAngle 3) = true ∧ isUpdate (.svmUpdate u16q15 0) = true := by decide

theorem witness_FixedPointDependsOnOperandsOnly : isFixedPoint (.fpDiv s8q4 1 0) = true := by decide

theorem witness_OperandReadingFollowsType :
    InRange s8q4 (-128) ∧ InRange s8q4 127 ∧ InRange u8q4 0 ∧ InRange u8q4 255 := by
  simp [InRange, s8q4, u8q4, Width.bits, pow2]

theorem witness_FromRealRoundsHalfAway :
    Finite64 0x3FF4000000000000#64 ∧ Finite64 0x7FEFFFFFFFFFFFFF#64 ∧ Finite64 0x8000000000000000#64 ∧
    ¬ Finite64 0xFFF0000000000000#64 ∧ ¬ Finite64 0x7FF8000000000000#64 := by
  simp [Finite64]

/-- The premise of every "Encoding: T-form" and "C-form", at both ends of F. -/
theorem witness_legal_types :
    s8q4.legal = true ∧ (⟨.w8, false, 8⟩ : FxType).legal = true ∧ (⟨.w16, true, 0⟩ : FxType).legal = true ∧
    (⟨.w64, true, 63⟩ : FxType).legal = true := by decide

theorem witness_ToRealIsNearestEven :
    (⟨.w64, false, 63⟩ : FxType).legal = true ∧ |valT ⟨.w64, true, 0⟩ 0x1FFFFFFFFFFFFF#64| < 2 ^ 53 := by decide

theorem witness_ToFloatIsNearestEven :
    (⟨.w64, true, 0⟩ : FxType).legal = true ∧ |valT ⟨.w64, true, 0⟩ 0xFFFFFF#64| < 2 ^ 24 := by decide

theorem witness_DivAndModByNonzero : valT s8q4 0xFFFFFFFFFFFFFFFF#64 ≠ 0 ∧ valT u8q4 0x101#64 ≠ 0 := by decide

theorem witness_DivAndModByZero : valT s8q4 0x100#64 = 0 ∧ valT ⟨.w64, false, 0⟩ 0#64 = 0 := by decide

theorem witness_RealRoundTripWithinHalfPrecision :
    s16q8.legal = true ∧ Finite64 0x3FF4000000000000#64 ∧
    IsRoundHalfAway 320 (real64 0x3FF4000000000000#64 * 2 ^ s16q8.frac) ∧ InRange s16q8 320 ∧
    |(320 : Int)| < 2 ^ 53 := by
  have hreal : real64 0x3FF4000000000000#64 = 5 / 4 := by
    simp only [real64, show (0x3FF4000000000000#64).extractLsb' 0 52 = 0x4000000000000#52 by decide,
      show (0x3FF4000000000000#64).extractLsb' 52 11 = 0x3FF#11 by decide,
      show (0x3FF4000000000000#64).getLsbD 63 = false by decide]
    norm_num
  refine ⟨by decide, by simp [Finite64], ?_, by simp [InRange, s16q8, Width.bits, pow2], by decide⟩
  rw [hreal]
  norm_num [IsRoundHalfAway, s16q8]

theorem witness_TableEntryIsRoundedSine :
    (⟨16, 65535, .rom, .halfUp, .zero⟩ : Config).Legal ∧
    65536 < (if (⟨16, 65535, .rom, .halfUp, .zero⟩ : Config).variant = .rom then 2 ^ 16 + 1 else 2 ^ 16) ∧
    (⟨1, 1, .ram, .halfDown, .zero⟩ : Config).Legal ∧
    (if (⟨1, 1, .ram, .halfDown, .zero⟩ : Config).variant = .rom then 2 ^ 1 + 1 else 2 ^ 1) ≤ 2 := by decide

theorem witness_TieOnlyAtThirtyDegrees :
    (⟨2, 1001, .rom, .halfDown, .zero⟩ : Config).Legal ∧ 2 = 2 ^ 2 / 2 ∧ 1001 % 2 = 1 ∧
    (⟨2, 1000, .rom, .halfDown, .zero⟩ : Config).Legal ∧ ¬ (2 = 2 ^ 2 / 2 ∧ 1000 % 2 = 1) ∧
    4 ≤ 2 ^ (⟨2, 1000, .rom, .halfDown, .zero⟩ : Config).precision := by decide

theorem witness_TableIsBoundedAndNonIncreasing :
    State.reset.config.Legal ∧ 0 ≤ 4 ∧ memRead State.reset.config 0 = some 866 ∧
    memRead State.reset.config 4 = some 0 := by decide

theorem witness_TableReadInsideAndOutside :
    (0x100000004#64).toNat % 2 ^ 32 < (if State.reset.config.variant = .rom then 2 ^ State.reset.config.precision + 1
      else 2 ^ State.reset.config.precision) ∧
    (if State.reset.config.variant = .rom then 2 ^ State.reset.config.precision + 1
      else 2 ^ State.reset.config.precision) ≤ (5#64).toNat % 2 ^ 32 := by decide

theorem witness_SymmetricLookupIsInRange :
    0 < State.reset.config.steps ∧ 3 < State.reset.config.steps := by decide

theorem witness_RamTableIsRomTableWithoutLastEntry :
    State.reset.config.Legal ∧ 3 < State.reset.config.steps ∧ State.reset.config.steps < 5 := by decide

theorem witness_SingleStepCorrectionAgrees :
    State.reset.Inv ∧ (24 : Int) = 6 * 2 ^ State.reset.config.precision ∧
    ((0xFFFFFFE8#64).setWidth 32).toInt = -24 ∧ |(-24 : Int)| ≤ 24 ∧
    ((47#64).setWidth 32).toInt < 2 * 24 ∧ ((48#64).setWidth 32).toInt = 2 * 24 ∧
    ((0xFFFFFFE7#64).setWidth 32).toInt < -24 := by decide

theorem witness_SectorProgression : State.reset.config.Legal ∧ State.reset.angle = 0#32 := by decide

theorem witness_UpdateWritesRoutedChannels :
    (block 2 1000 .rom .halfDown 23).Inv ∧ 0 ≤ valT u16q15 0x8000 ∧
    valT u16q15 0x8000 ≤ 2 ^ u16q15.frac ∧
    top3 (duties (block 2 1000 .rom .halfDown 23) (valT u16q15 0x8000) u16q15.frac) ≤ 2 ^ 32 - 1 := by
  decide +kernel

theorem witness_UpdateRaisesModulationRange :
    valT s16q8 0xFFFF < 0 ∧ (block 2 65535 .rom .halfDown 1).Inv ∧ 0 ≤ valT ⟨.w64, false, 0⟩ 0x10000000000 ∧
    2 ^ 32 - 1 < top3 (duties (block 2 65535 .rom .halfDown 1) (valT ⟨.w64, false, 0⟩ 0x10000000000) 0) := by
  decide +kernel

theorem witness_RomChannelsStayWithinScaleMax :
    (block 16 65535 .rom .halfDown 393215).Inv ∧ (block 16 65535 .rom .halfDown 393215).config.variant = .rom ∧
    (block 16 65535 .rom .halfDown 393215).config.tie = .halfDown ∧ 0 ≤ valT u16q15 0x8000 ∧
    valT u16q15 0x8000 ≤ 2 ^ u16q15.frac := by decide

theorem witness_OverModulationClampsToZero :
    (block 2 1000 .rom .halfDown 2).Inv ∧ 40960 = valT u16q15 0xA000 ∧
    (0, 625, 625) = dutyParts (block 2 1000 .rom .halfDown 2) 40960 u16q15.frac ∧
    ((block 2 1000 .rom .halfDown 2).config.scaleMax : Int) < 625 + 625 ∧ (625 + 625 : Int) ≤ 2 ^ 32 - 1 := by
  decide +kernel

theorem witness_UpdateIsIdempotent :
    after (exec (.svmUpdate u16q15 0x8000) (block 2 1000 .rom .halfDown 8)) (fun t => (channels t, t.code)) =
      some ((67, 933, 67), 0) := by decide

theorem witness_AngleChangeLeavesChannelsStale :
    State.reset.Inv ∧ after (exec (.svmUpdate u16q15 0x8000) State.reset) channels = some (67, 67, 933) := by decide

theorem witness_ConfigRegisterFields :
    State.reset.config.Legal ∧ after (step State.reset) (·.angle) = some 0#32 := by decide

theorem witness_RegistersAreLittleEndian :
    State.reset.hostReadBytes .config = some [0x02#8, 0x07#8, 0xE8#8, 0x03#8] := by decide

end Sys2Proof.Tests
end

section
/-! PROOFS of 00_scope.md: O20, O25. Reading an operand is congruent to its pattern (`valT_modEq`), and a type has
one integer in each class modulo `2^W` (`InRange.eq_of_modEq`); the read-back of `out_T` follows from these two. -/

namespace Sys2Proof.Machine

/-- Two integers of T congruent modulo `2^W` are equal (R14). -/
theorem InRange.eq_of_modEq {t : FxType} {a b : Int} (ha : InRange t a) (hb : InRange t b)
    (h : a ≡ b [ZMOD pow2 t.width.bits]) : a = b := by
  rw [← wrapT_of_inRange ha, ← wrapT_of_inRange hb]
  unfold wrapT emod
  split
  · rw [(h.add_right _).eq]
  · exact h

/-- `val_T` changes only the bits above the low W: the integer is congruent to the whole pattern (R14). -/
theorem valT_modEq (t : FxType) (x : Word) : valT t x ≡ x.toNat [ZMOD pow2 t.width.bits] := by
  unfold valT
  split
  · rw [BitVec.toInt_setWidth]
    exact Int.bmod_emod
  · rw [BitVec.toNat_setWidth, Int.natCast_mod]
    exact Int.mod_modEq _ _

/-- The 64-bit pattern of an integer is congruent to it modulo every `2^W` a type has. -/
theorem ofInt_toNat_modEq (w : Width) (n : Int) :
    ((BitVec.ofInt 64 n).toNat : Int) ≡ n [ZMOD pow2 w.bits] := by
  have h64 : ((BitVec.ofInt 64 n).toNat : Int) ≡ n [ZMOD pow2 64] := by
    rw [BitVec.toNat_ofInt, Int.toNat_of_nonneg (Int.emod_nonneg n (pow2_pos 64).ne')]
    exact Int.mod_modEq n _
  exact h64.of_dvd (Int.natCast_dvd_natCast.2 (pow_dvd_pow 2 w.bits_le))

/-- `val_T` reads back the integer of T that `out_T` extended to 64 bits (R14, R31). -/
theorem valT_outT {t : FxType} {n : Int} (h : InRange t n) : valT t (outT t n) = n := by
  refine (valT_inRange t _).eq_of_modEq h ((valT_modEq t _).trans ?_)
  rw [outT_eq_ofInt h]
  exact ofInt_toNat_modEq t.width n

end Sys2Proof.Machine

namespace Sys2Proof.Proofs

open Sys2Proof.Machine

/-- Settles O20: no step changes the parameters, and the table store is a function of them. -/
theorem configurationIsConstant : Obligations.ConfigurationIsConstant := by
  intro s t h
  have hc : t.config = s.config := step_keeps_config h
  exact ⟨hc, fun k => by rw [hc]⟩

/-- Settles O25: the range and the congruence of `val_T`, and with them its read-back of `out_T`. -/
theorem operandReadingFollowsType : Obligations.OperandReadingFollowsType := by
  intro t x
  exact ⟨valT_inRange t x, by simpa using valT_modEq t x, fun _ => valT_outT⟩

end Sys2Proof.Proofs
end

section
/-! PROOFS of 10_state.md: O13, O14, O15, O18, O21, O22, O23, O49, O52, O56. What a command that answers a next
state did, by the kind of the instruction (`exec_next_cases`), gives the frame and fault statements; the invariant is
kept because every ending writes a legal status and only normalised angles. The bound of O52 is that two table
entries rounded from values whose sum is at most SCALE_MAX, halves going down, have a sum of at most SCALE_MAX. -/

namespace Sys2Proof.Machine

open Sys2Proof.Claims

/-! ## Endings by the kind of the instruction -/

/-- The shape of a command with one check before its result. -/
theorem endsWithResult_ite {p : Prop} [Decidable p] (e : CommandFault) (v : Word) (s : State) :
    EndsWithResult (if p then .next (s.raise e) else .next (s.finishRes v)) s := by
  split
  exacts [.inr ⟨e, rfl⟩, .inl ⟨v, rfl⟩]

/-- TBL_READ after its index check reads the entry: the read is then inside the table (R52, R160). -/
theorem execTblRead_eq (opa : Word) (s : State) :
    execTblRead opa s =
      if tableSize s.config ≤ zext32 opa then .next (s.raise .indexOutOfRange)
      else .next (s.finishRes (BitVec.ofNat 64 (tableEntry s.config (zext32 opa)))) := by
  unfold execTblRead
  split
  · rfl
  · rw [memRead_of_lt (by omega)]

/-- Every command but the three of the angle tracker writes RES or faults (R31). -/
theorem exec_endsWithResult {i : Instr} (hw : writesAngle i = false) (hu : isUpdate i = false) (s : State) :
    EndsWithResult (exec i s) s := by
  cases i with
  | svmSetAngle opa => cases hw
  | svmMove opa => cases hw
  | svmUpdate t opa => cases hu
  | fpFromReal t opa => exact endsWithResult_ite _ _ s
  | fpDiv t opa opb => exact endsWithResult_ite _ _ s
  | fpMod t opa opb => exact endsWithResult_ite _ _ s
  | tblRead opa =>
    show EndsWithResult (execTblRead opa s) s
    rw [execTblRead_eq]
    exact endsWithResult_ite _ _ s
  | _ => exact .inl ⟨_, rfl⟩

/-- Everything SVM_UPDATE can do: write the channels, raise MODULATION_RANGE, or stop for what never occurs. -/
theorem execSvmUpdate_cases (t : FxType) (opa : Word) (s : State) :
    (∃ c1 c2 c3, execSvmUpdate t opa s = .next (s.writeChannels c1 c2 c3).completeOk) ∨
    execSvmUpdate t opa s = .next (s.raise .modulationRange) ∨
    ∃ r, execSvmUpdate t opa s = .fault r := by
  unfold execSvmUpdate
  split
  · exact .inr (.inl rfl)
  · split
    · unfold updateFrom
      dsimp only
      split
      · rename_i c1 c2 c3 _
        rcases finishChannels_cases c1 c2 c3 s with ⟨-, -, -, h⟩ | ⟨-, h⟩
        · exact .inl ⟨c1, c2, c3, h⟩
        · exact .inr (.inl h)
      · exact .inr (.inr ⟨_, rfl⟩)
    · exact .inr (.inr ⟨_, rfl⟩)

/-- What a command that answers a next state did, by its kind (R40): SVM_SET_ANGLE and SVM_MOVE end OK with ANGLE
written, SVM_UPDATE alone writes the channels, and RES is written by none of the three. -/
theorem exec_next_cases {i : Instr} {s t : State} (h : exec i s = .next t) :
    (writesAngle i = false ∧ isUpdate i = false ∧ ∃ v, t = s.finishRes v) ∨
    (writesAngle i = false ∧ ∃ e, t = s.raise e) ∨
    (writesAngle i = true ∧ isUpdate i = false ∧
      ∃ x, t = (s.writeAngle (normAngle s.config x)).completeOk) ∨
    (writesAngle i = false ∧ isUpdate i = true ∧
      ∃ c1 c2 c3, t = (s.writeChannels c1 c2 c3).completeOk) := by
  cases hw : writesAngle i with
  | true =>
    refine .inr (.inr (.inl ⟨rfl, ?_⟩))
    cases i with
    | svmSetAngle opa => cases h; exact ⟨rfl, _, rfl⟩
    | svmMove opa => cases h; exact ⟨rfl, _, rfl⟩
    | _ => cases hw
  | false =>
    cases hu : isUpdate i with
    | true =>
      cases i with
      | svmUpdate ty opa =>
        change execSvmUpdate ty opa s = _ at h
        rcases execSvmUpdate_cases ty opa s with ⟨c1, c2, c3, hx⟩ | hx | ⟨r, hx⟩ <;> rw [hx] at h <;> cases h
        · exact .inr (.inr (.inr ⟨rfl, rfl, c1, c2, c3, rfl⟩))
        · exact .inr (.inl ⟨rfl, _, rfl⟩)
      | _ => cases hu
    | false =>
      rcases exec_endsWithResult hw hu s with ⟨v, hx⟩ | ⟨e, hx⟩ <;> rw [hx] at h <;> cases h
      · exact .inl ⟨rfl, rfl, v, rfl⟩
      · exact .inr (.inl ⟨rfl, e, rfl⟩)

/-! ## The status code of each ending -/

theorem State.completeOk_code (s : State) : s.completeOk.code = 0 := rfl

theorem State.finishRes_code (s : State) (v : Word) : (s.finishRes v).code = 0 := rfl

theorem State.raise_code (s : State) (e : CommandFault) : (s.raise e).code = e.code := statusOf_code e

/-! ## The invariant -/

/-- The invariant speaks of registers only, not of the issued commands (log entry 2). -/
theorem State.Inv.withPort {s : State} (h : s.Inv) (cs : List Command) : { s with port := cs }.Inv := h

/-- A command that ends OK keeps the invariant when it leaves ANGLE in range and takes no channel value away: its
status is 0, and FAULTS is as it was (R32, R33). -/
theorem State.Inv.of_endsOk {s t : State} (h : s.Inv) (hconfig : t.config = s.config) (hangle : t.AngleInRange)
    (hstatus : t.status = statusOk) (hfaults : t.faults = s.faults) (hvalid : s.chnValid = true → t.chnValid = true) :
    t.Inv := by
  obtain ⟨hlegal, -, -, hreserved, -, hheld⟩ := h
  have hcode : t.code = 0 := by rw [State.code, hstatus, statusOk_code]
  refine ⟨hconfig ▸ hlegal, hangle, ⟨by omega, ?_⟩, ?_, fun hne => absurd hcode hne, fun hzero => ?_⟩
  · rw [hstatus, statusOk_reserved]
  · rw [State.FaultsLegal, hfaults]
    exact hreserved
  · exact hvalid (hheld (hconfig ▸ hzero))

/-- Raising a fault keeps the invariant: a produced code, with its own sticky bit set (R223). -/
theorem State.Inv.raise {s : State} (h : s.Inv) (e : CommandFault) : (s.raise e).Inv := by
  obtain ⟨hlegal, hangle, -, hreserved, -, hheld⟩ := h
  refine ⟨hlegal, hangle, ⟨?_, statusOf_reserved e⟩, setSticky_legal e hreserved, fun _ => ?_, hheld⟩
  · rw [State.raise_code]
    exact e.code_le
  · rw [State.raise_code]
    exact setSticky_self s.faults e

/-- A normalised angle is in range (R23, R180). -/
theorem angleInRange_writeAngle {s : State} (hc : s.config.Legal) (x : Int) :
    (s.writeAngle (normAngle s.config x)).AngleInRange := by
  rw [State.AngleInRange, State.writeAngle_angle, State.writeAngle_config, toInt_ofInt_normAngle hc]
  exact normAngle_range s.config x

/-- Every command keeps the invariant. -/
theorem State.Inv.exec {i : Instr} {s t : State} (h : s.Inv) (hx : Machine.exec i s = .next t) : t.Inv := by
  have ⟨hlegal, hangle, _⟩ := h
  rcases exec_next_cases hx with ⟨-, -, v, rfl⟩ | ⟨-, e, rfl⟩ | ⟨-, -, x, rfl⟩ | ⟨-, -, c1, c2, c3, rfl⟩
  · exact h.of_endsOk rfl hangle rfl rfl id
  · exact h.raise e
  · exact h.of_endsOk rfl (angleInRange_writeAngle hlegal x) rfl rfl id
  · exact h.of_endsOk rfl hangle rfl rfl fun _ => rfl

/-- The state after reset of an admitted block meets the invariant (R260). -/
theorem inv_afterReset {c : Config} (h : c.Legal) : (State.afterReset c).Inv := by
  refine ⟨h, ⟨le_rfl, ?_⟩, ⟨Nat.zero_le 5, statusOk_reserved⟩, BitVec.zero_and,
    fun hne => absurd rfl hne, fun hzero => ?_⟩
  · have := steps_pos c
    show (0 : Int) < (6 * c.steps : Nat)
    omega
  · exact decide_eq_true hzero

/-- A block just reset has the registers of `State.afterReset`, with some list of issued commands (R260). -/
theorem eq_afterReset_of_justReset {c : Config} {t : State} (h : JustReset c t) :
    ∃ cs, t = { State.afterReset c with port := cs } := by
  obtain rfl | ⟨s, rfl, rfl⟩ := h
  exacts [⟨[], rfl⟩, ⟨s.port, rfl⟩]

/-! ## Host reads -/

/-- A channel reads as no value exactly while the channels hold none (R29). -/
theorem readChannel_eq_none (s : State) (chn : BitVec 32) : s.readChannel chn = none ↔ s.chnValid = false := by
  cases h : s.chnValid <;> simp [State.readChannel, h]

/-- Concatenation of patterns as a number. -/
theorem toNat_append_eq_add {m n : Nat} (x : BitVec m) (y : BitVec n) :
    (x ++ y).toNat = x.toNat * 2 ^ n + y.toNat := by
  rw [BitVec.toNat_append, ← Nat.shiftLeft_add_eq_or_of_lt y.isLt, Nat.shiftLeft_eq]

/-- CONFIG as a number, field by field (R34). -/
theorem configWord_toNat {c : Config} (h : c.Legal) :
    (configWord c).toNat = c.precision + variantBit c * 2 ^ 5 + tieBit c * 2 ^ 6 + outResetBit c * 2 ^ 7 +
      7 * 2 ^ 8 + c.scaleMax * 2 ^ 16 := by
  obtain ⟨-, hp, -, hs⟩ := h
  have hv : variantBit c < 2 := by unfold variantBit; split <;> decide
  have ht : tieBit c < 2 := by unfold tieBit; split <;> decide
  have ho : outResetBit c < 2 := by unfold outResetBit; split <;> decide
  simp only [configWord, toNat_append_eq_add, BitVec.toNat_ofNat]
  omega

/-! ## Two symmetric table entries -/

open Real in
/-- The exact value of an entry as a cosine of at most 90 degrees (R150). -/
theorem exactEntry_eq_cos {c : Config} (hc : c.Legal) (i : Nat) :
    exactEntry c i = c.scaleMax * cos (stepAngle c.precision (c.steps / 2 + i)) := by
  rw [exactEntry, sin_eq_cos_stepAngle hc.1]

theorem exactEntry_nonneg {c : Config} (hc : c.Legal) {i : Nat} (hi : i ≤ c.steps) : 0 ≤ exactEntry c i := by
  rw [exactEntry_eq_cos hc]
  refine mul_nonneg (Nat.cast_nonneg _) (cos_stepAngle_nonneg ?_)
  unfold Config.steps at *
  omega

theorem exactEntry_le (c : Config) (i : Nat) : exactEntry c i ≤ c.scaleMax :=
  mul_le_of_le_one_right (Nat.cast_nonneg _) (Real.sin_le_one _)

/-- With ties rounded down an entry is less than one half above its exact value (R152). -/
theorem tableEntry_lt_of_halfDown {c : Config} (hc : c.Legal) (ht : c.tie = .halfDown) {i : Nat} (hi : i ≤ c.steps) :
    (tableEntry c i : ℝ) < exactEntry c i + 1 / 2 := by
  have reaches : ∀ e : Nat, 1 ≤ e → (entryReaches c i e = true ↔ (e : ℝ) - 1 / 2 < exactEntry c i) := by
    intro e he
    simp [entryReaches_iff hc hi he, ht]
  have hmax : ¬ entryReaches c i (0 + 2 ^ 16) = true := by
    have hs : (c.scaleMax : ℝ) ≤ 65535 := by exact_mod_cast hc.2.2.2
    rw [reaches _ (by norm_num)]
    have := exactEntry_le c i
    norm_num
    linarith
  obtain ⟨-, -, hreached, -⟩ := entrySearch_spec c i 16 0 (.inl rfl) hmax
  change tableEntry c i = 0 ∨ entryReaches c i (tableEntry c i) = true at hreached
  rcases Nat.eq_zero_or_pos (tableEntry c i) with h0 | hpos
  · have := exactEntry_nonneg hc hi
    rw [h0]
    norm_num
    linarith
  · have := (reaches _ hpos).1 (hreached.resolve_left hpos.ne')
    linarith

open Real in
/-- The exact values at `i` and `N - i` are SCALE_MAX times `sin (60° - φ)` and `sin φ`, whose sum is
`cos (30° - φ)` (R193). -/
theorem exactEntry_add_symmetric_le {c : Config} {i : Nat} (hi : i ≤ c.steps) :
    exactEntry c i + exactEntry c (c.steps - i) ≤ c.scaleMax := by
  set φ : ℝ := i * (π / 3) / 2 ^ c.precision with hφ
  have hsym : π / 3 - (c.steps - i : Nat) * (π / 3) / 2 ^ c.precision = φ := by
    rw [Nat.cast_sub hi, hφ]
    push_cast
    field_simp
    ring
  have hsum : sin (π / 3 - φ) + sin φ = cos (π / 6 - φ) := by
    rw [sin_sub, cos_sub, sin_pi_div_three, cos_pi_div_three, sin_pi_div_six, cos_pi_div_six]
    ring
  rw [exactEntry, exactEntry, hsym, ← hφ, ← mul_add, hsum]
  exact mul_le_of_le_one_right (Nat.cast_nonneg _) (cos_le_one _)

/-- The bound of R193 on the table: with ties rounded down two symmetric ROM entries sum to at most SCALE_MAX. -/
theorem tableEntry_add_symmetric_le {c : Config} (hc : c.Legal) (ht : c.tie = .halfDown) {i : Nat}
    (hi : i ≤ c.steps) : tableEntry c i + tableEntry c (c.steps - i) ≤ c.scaleMax := by
  have h1 := tableEntry_lt_of_halfDown hc ht hi
  have h2 := tableEntry_lt_of_halfDown hc ht (Nat.sub_le c.steps i)
  have h3 := exactEntry_add_symmetric_le hi
  have hlt : ((tableEntry c i + tableEntry c (c.steps - i) : Nat) : ℝ) < ((c.scaleMax + 1 : Nat) : ℝ) := by
    push_cast
    linarith
  exact Nat.le_of_lt_succ (Nat.cast_lt.1 hlt)

/-! ## SVM_UPDATE with a factor in [0, 1.0] -/

theorem scaleBy_nonneg (t : FxType) {m : Int} (hm : 0 ≤ m) (scale : Nat) : 0 ≤ scaleBy t m scale :=
  asr_nonneg (mul_nonneg (Int.natCast_nonneg scale) hm) _

/-- A factor of at most 1.0 does not enlarge a table value (R190). -/
theorem scaleBy_le (t : FxType) {m : Int} (hm : m ≤ pow2 t.frac) (scale : Nat) : scaleBy t m scale ≤ scale :=
  calc scaleBy t m scale
    _ ≤ asr (scale * pow2 t.frac) t.frac := asr_le_asr (mul_le_mul_of_nonneg_left hm (Int.natCast_nonneg scale)) _
    _ = scale := asr_mul_pow2 _ _

/-- Every channel the router gives is the zero value plus some of `a`, `b` (R192). -/
theorem route_range {sector : BitVec 3} {zero a b c1 c2 c3 : Int} (ha : 0 ≤ a) (hb : 0 ≤ b)
    (h : route sector zero a b = some (c1, c2, c3)) :
    (zero ≤ c1 ∧ c1 ≤ zero + a + b) ∧ (zero ≤ c2 ∧ c2 ≤ zero + a + b) ∧ (zero ≤ c3 ∧ c3 ≤ zero + a + b) := by
  unfold route at h
  split at h <;> simp only [Option.some.injEq, Prod.mk.injEq, reduceCtorEq] at h <;> omega

/-- The zero value centres the two active values: with `a + b` within SCALE_MAX so is their sum with it (R191). -/
theorem zeroValue_add_le {scaleMax : Nat} {a b : Int} (h : a + b ≤ scaleMax) :
    zeroValue scaleMax a b + a + b ≤ scaleMax := by
  unfold zeroValue floorDiv
  omega

theorem zeroValue_nonneg (scaleMax : Nat) (a b : Int) : 0 ≤ zeroValue scaleMax a b := le_max_left _ _

/-- With `a + b` within SCALE_MAX an update writes channels in `[0, SCALE_MAX]`. -/
theorem updateFrom_of_add_le {t : FxType} {m : Int} {scaleA scaleB : Nat} {s : State} (hc : s.config.Legal)
    (hsector : s.sector.toNat ≤ 5) (hm : 0 ≤ m)
    (hsum : scaleBy t m scaleA + scaleBy t m scaleB ≤ s.config.scaleMax) :
    ∃ c1 c2 c3, updateFrom t m scaleA scaleB s = .next (s.writeChannels c1 c2 c3).completeOk ∧
      (0 ≤ c1 ∧ c1 ≤ s.config.scaleMax) ∧ (0 ≤ c2 ∧ c2 ≤ s.config.scaleMax) ∧ (0 ≤ c3 ∧ c3 ≤ s.config.scaleMax) := by
  obtain ⟨-, -, -, hmax⟩ := hc
  have hzero := zeroValue_nonneg s.config.scaleMax (scaleBy t m scaleA) (scaleBy t m scaleB)
  have htop := zeroValue_add_le hsum
  obtain ⟨c1, c2, c3, hroute⟩ := route_of_le hsector
    (zeroValue s.config.scaleMax (scaleBy t m scaleA) (scaleBy t m scaleB)) (scaleBy t m scaleA) (scaleBy t m scaleB)
  obtain ⟨h1, h2, h3⟩ := route_range (scaleBy_nonneg t hm scaleA) (scaleBy_nonneg t hm scaleB) hroute
  have hnext : updateFrom t m scaleA scaleB s = finishChannels c1 c2 c3 s := by
    simp only [updateFrom, hroute]
  refine ⟨c1, c2, c3, ?_, by omega, by omega, by omega⟩
  rcases finishChannels_cases c1 c2 c3 s with ⟨-, -, -, h⟩ | ⟨hbig, -⟩
  · rw [hnext, h]
  · have : pow2 32 - 1 = 4294967295 := by norm_num [pow2]
    omega

/-- An update with a factor that is not negative works on the two entries of its sector angle (R195). -/
theorem execSvmUpdate_of_nonneg {t : FxType} {opa : Word} {s : State} (hc : s.config.Legal) (hm : 0 ≤ valT t opa) :
    execSvmUpdate t opa s = updateFrom t (valT t opa) (tableEntry s.config s.sectorAngle.toNat)
      (tableEntry s.config (secondIndex s.config s.sectorAngle.toNat)) s := by
  rw [execSvmUpdate, if_neg (not_lt.2 hm), lookup_of_lt (sectorAngle_lt s hc)]

/-- A channel written with a value in `[0, n]` holds a value of at most `n`. -/
theorem toNat_ofInt_le {x : Int} {n : Nat} (h0 : 0 ≤ x) (h : x ≤ n) : (BitVec.ofInt 32 x).toNat ≤ n := by
  obtain ⟨k, rfl⟩ := Int.eq_ofNat_of_zero_le h0
  rw [BitVec.ofInt_natCast, BitVec.toNat_ofNat]
  exact (Nat.mod_le _ _).trans (by exact_mod_cast h)

end Sys2Proof.Machine

namespace Sys2Proof.Proofs

open Sys2Proof.Machine Sys2Proof.Claims

/-- Settles O15: by what a step can do, each ending of a command keeps the invariant. -/
theorem everyStepKeepsInvariant : Obligations.EveryStepKeepsInvariant := by
  intro s t hinv h
  obtain ⟨-, ⟨-, rfl⟩ | ⟨c, rest, -, ⟨i, -, hx⟩ | ⟨-, rfl⟩⟩⟩ := step_cases h
  · exact hinv
  · exact (hinv.withPort rest).exec hx
  · exact (hinv.withPort rest).raise .illegalCommand

/-- Settles O13: the channel values after reset, when a read has no value, and which command gives one. -/
theorem channelsHoldNoValueUntilUpdate : Obligations.ChannelsHoldNoValueUntilUpdate := by
  refine ⟨fun c t hreset => ?_, fun r s => ?_, fun i s t h => ?_⟩
  · obtain ⟨cs, rfl⟩ := eq_afterReset_of_justReset hreset
    refine ⟨fun hzero => ?_, fun hundef => ?_⟩
    · simp [State.hostRead, State.readChannel, State.channelAfterReset, hzero]
    · simp [hundef]
  · cases r <;> simp [State.hostRead, readChannel_eq_none]
  · rcases exec_next_cases h with ⟨-, hu, v, rfl⟩ | ⟨-, e, rfl⟩ | ⟨-, hu, x, rfl⟩ | ⟨-, hu, c1, c2, c3, rfl⟩
    · exact ⟨.inl, fun hor => hor.resolve_right (by simp [hu])⟩
    · exact ⟨.inl, fun hor => hor.resolve_right fun hok => e.code_ne_zero (s.raise_code e ▸ hok.2)⟩
    · exact ⟨.inl, fun hor => hor.resolve_right (by simp [hu])⟩
    · exact ⟨fun _ => .inr ⟨hu, State.completeOk_code _⟩, fun _ => rfl⟩

/-- Settles O18: only a raised fault writes FAULTS, and it sets a bit. -/
theorem faultsAreSticky : Obligations.FaultsAreSticky := by
  intro s t k h hk
  obtain ⟨-, ⟨-, rfl⟩ | ⟨c, rest, -, ⟨i, -, hx⟩ | ⟨-, rfl⟩⟩⟩ := step_cases h
  · exact hk
  · rcases exec_next_cases hx with ⟨-, -, v, rfl⟩ | ⟨-, e, rfl⟩ | ⟨-, -, x, rfl⟩ | ⟨-, -, c1, c2, c3, rfl⟩
    · exact hk
    · exact setSticky_keeps e hk
    · exact hk
    · exact hk
  · exact setSticky_keeps .illegalCommand hk

/-- Settles O21: of the endings only the write of an angle touches ANGLE. -/
theorem onlyAngleCommandsWriteAngle : Obligations.OnlyAngleCommandsWriteAngle := by
  intro i s t hw h
  rcases exec_next_cases h with ⟨-, -, v, rfl⟩ | ⟨-, e, rfl⟩ | ⟨hw', -⟩ | ⟨-, -, c1, c2, c3, rfl⟩
  · rfl
  · rfl
  · rw [hw] at hw'
    cases hw'
  · rfl

/-- Settles O22: of the endings only the write of the channels, which is an update that ends OK, touches them. -/
theorem onlySuccessfulUpdateWritesChannels : Obligations.OnlySuccessfulUpdateWritesChannels := by
  intro i s t h hno
  rcases exec_next_cases h with ⟨-, -, v, rfl⟩ | ⟨-, e, rfl⟩ | ⟨-, -, x, rfl⟩ | ⟨-, hu, c1, c2, c3, rfl⟩
  · exact ⟨rfl, rfl, rfl⟩
  · exact ⟨rfl, rfl, rfl⟩
  · exact ⟨rfl, rfl, rfl⟩
  · exact absurd ⟨hu, State.completeOk_code _⟩ hno

/-- Settles O23: of the endings only a result, with status OK and of no SVM command, touches RES. -/
theorem svmAndFaultingCommandsKeepRes : Obligations.SvmAndFaultingCommandsKeepRes := by
  intro i s t h hkind
  rcases exec_next_cases h with ⟨hw, hu, v, rfl⟩ | ⟨-, e, rfl⟩ | ⟨-, -, x, rfl⟩ | ⟨-, -, c1, c2, c3, rfl⟩
  · obtain hfault | hw' | hu' := hkind
    · exact absurd (s.finishRes_code v) hfault
    · simp [hw] at hw'
    · simp [hu] at hu'
  · rfl
  · rfl
  · rfl

/-- Settles O49: SECTOR is the quotient and SECTOR_ANGLE the remainder of ANGLE by `2^P`. -/
theorem angleIsSectorAndSectorAngle : Obligations.AngleIsSectorAndSectorAngle := by
  rintro s ⟨hlegal, hangle, -⟩
  obtain ⟨hsector, hle⟩ := sector_toNat s hangle
  have hrest := sectorAngle_toNat s hlegal
  refine ⟨?_, hsector ▸ hle, hrest, ?_, ?_⟩
  · rw [hsector, Nat.mod_eq_of_lt (lt_of_le_of_lt hle (by norm_num))]
  · rw [← hrest, State.hostRead, BitVec.ofNat_toNat]
  · rw [hsector, hrest, Nat.div_add_mod']

/-- Settles O52: the two scaled values are at most the symmetric ROM entries, whose sum is at most SCALE_MAX. -/
theorem romChannelsStayWithinScaleMax : Obligations.RomChannelsStayWithinScaleMax := by
  rintro t a s ⟨hlegal, hangle, -⟩ hrom htie hm hone
  obtain ⟨hsector, hle⟩ := sector_toNat s hangle
  have hone' : valT t a ≤ pow2 t.frac := by simpa using hone
  have hentries := tableEntry_add_symmetric_le hlegal htie (sectorAngle_lt s hlegal).le
  have hsecond : secondIndex s.config s.sectorAngle.toNat = s.config.steps - s.sectorAngle.toNat := by
    simp [secondIndex, hrom]
  have hA := scaleBy_le t hone' (tableEntry s.config s.sectorAngle.toNat)
  have hB := scaleBy_le t hone' (tableEntry s.config (s.config.steps - s.sectorAngle.toNat))
  obtain ⟨c1, c2, c3, hnext, h1, h2, h3⟩ := updateFrom_of_add_le hlegal (hsector ▸ hle) hm
    (show scaleBy t (valT t a) (tableEntry s.config s.sectorAngle.toNat) +
      scaleBy t (valT t a) (tableEntry s.config (s.config.steps - s.sectorAngle.toNat)) ≤ s.config.scaleMax by omega)
  refine ⟨(s.writeChannels c1 c2 c3).completeOk, ?_, rfl,
    toNat_ofInt_le h1.1 h1.2, toNat_ofInt_le h2.1 h2.2, toNat_ofInt_le h3.1 h3.2⟩
  show execSvmUpdate t a s = _
  rw [execSvmUpdate_of_nonneg hlegal hm, hsecond, hnext]

/-- Settles O56: CONFIG is a function of the parameters, which no step changes. -/
theorem configRegisterFields : Obligations.ConfigRegisterFields := by
  intro s hlegal
  refine ⟨_, rfl, ?_, fun t h => ?_⟩
  · rw [BitVec.toNat_setWidth_of_le (by norm_num), configWord_toNat hlegal]
    simp only [variantBit, tieBit, outResetBit, ite_mul, one_mul, zero_mul]
  · rw [State.hostRead, step_keeps_config h]

/-- Settles O14: the reset registers meet the invariant, whatever commands are issued. -/
theorem resetMeetsInvariant : Obligations.ResetMeetsInvariant := by
  intro c t hlegal hreset
  obtain ⟨cs, rfl⟩ := eq_afterReset_of_justReset hreset
  exact (inv_afterReset hlegal).withPort cs

end Sys2Proof.Proofs
end

section
/-! PROOFS of 20_memory.md: O11. No command reads the list of issued commands, so a command does the same with any
other list behind it (`exec_withPort`); a step then takes the oldest command and leaves the rest (`step_append`), and
the statement is an induction over the first commands. -/

namespace Sys2Proof.Machine

/-! ## Commands do not read the issued commands -/

/-- The ending of a command with one check before its result, with other commands issued behind it. -/
theorem check_withPort {p : Prop} [Decidable p] {e : CommandFault} {v : Word} {s t : State} (cs : List Command)
    (h : (if p then .next (s.raise e) else .next (s.finishRes v) : Outcome) = .next t) :
    (if p then .next ({ s with port := cs }.raise e) else .next ({ s with port := cs }.finishRes v) : Outcome) =
      .next { t with port := cs } := by
  split at h <;> cases h
  · exact if_pos ‹_›
  · exact if_neg ‹_›

theorem finishChannels_withPort {c1 c2 c3 : Int} {s t : State} (cs : List Command)
    (h : finishChannels c1 c2 c3 s = .next t) :
    finishChannels c1 c2 c3 { s with port := cs } = .next { t with port := cs } := by
  unfold finishChannels at h ⊢
  split at h <;> cases h
  · exact if_pos ‹_›
  · exact if_neg ‹_›

theorem updateFrom_withPort {ty : FxType} {m : Int} {scaleA scaleB : Nat} {s t : State} (cs : List Command)
    (h : updateFrom ty m scaleA scaleB s = .next t) :
    updateFrom ty m scaleA scaleB { s with port := cs } = .next { t with port := cs } := by
  have hsector : State.sector { s with port := cs } = s.sector := rfl
  simp only [updateFrom, hsector] at h ⊢
  split at h
  · exact finishChannels_withPort cs h
  · cases h

theorem execSvmUpdate_withPort {ty : FxType} {opa : Word} {s t : State} (cs : List Command)
    (h : execSvmUpdate ty opa s = .next t) :
    execSvmUpdate ty opa { s with port := cs } = .next { t with port := cs } := by
  have hangle : State.sectorAngle { s with port := cs } = s.sectorAngle := rfl
  simp only [execSvmUpdate, hangle] at h ⊢
  split at h
  · cases h
    exact if_pos ‹_›
  · rw [if_neg ‹_›]
    split at h
    · exact updateFrom_withPort cs h
    · cases h

/-- A command does the same whatever commands are issued behind it. -/
theorem exec_withPort {i : Instr} {s t : State} (cs : List Command) (h : exec i s = .next t) :
    exec i { s with port := cs } = .next { t with port := cs } := by
  cases i with
  | fpFromReal ty opa => exact check_withPort cs h
  | fpDiv ty opa opb => exact check_withPort cs h
  | fpMod ty opa opb => exact check_withPort cs h
  | tblRead opa =>
    change execTblRead opa s = _ at h
    show execTblRead opa _ = _
    rw [execTblRead_eq] at h ⊢
    exact check_withPort cs h
  | svmUpdate ty opa => exact execSvmUpdate_withPort cs h
  | _ => cases h; rfl

/-! ## Steps and runs with later commands issued -/

/-- A step that accepts a command the decoder rejects raises ILLEGAL_COMMAND (R78). -/
theorem step_of_decode_error {s : State} {c : Command} {rest : List Command} {e : Illegal} (hc : s.config.Legal)
    (hp : s.port = c :: rest) (hd : decode c = .error e) :
    step s = .next ({ s with port := rest }.raise .illegalCommand) := by
  rw [step, if_pos hc]
  simp only [State.accept, hp, runCommand, hd]

/-- A step consumes the oldest command, and does so with later commands issued too (R58). -/
theorem step_append {c : Command} {rest : List Command} {s t : State} (later : List Command)
    (h : step { s with port := c :: rest } = .next t) :
    t.port = rest ∧
      step { s with port := c :: (rest ++ later) } = .next { t with port := rest ++ later } := by
  obtain ⟨hc, ⟨hnil, -⟩ | ⟨c', rest', hp, ⟨i, hd, hx⟩ | ⟨⟨e, hd⟩, rfl⟩⟩⟩ := step_cases h
  · cases hnil
  · cases hp
    refine ⟨(exec_keeps hx).2, ?_⟩
    rw [step_of_decode (s := { s with port := c :: (rest ++ later) }) hc rfl hd]
    exact exec_withPort (s := { s with port := rest }) (rest ++ later) hx
  · cases hp
    exact ⟨rfl, step_of_decode_error (s := { s with port := c :: (rest ++ later) }) hc rfl hd⟩

/-- A run that answers a next state after its first step goes on from that step's next state. -/
theorem run_succ_eq_next {n : Nat} {s t : State} (h : core.run (n + 1) s = .next t) :
    ∃ u, step s = .next u ∧ core.run n u = .next t := by
  cases hx : step s with
  | next u => exact ⟨u, rfl, run_succ_of_next n hx ▸ h⟩
  | fault r => rw [run_succ_of_fault n hx] at h; cases h
  | refused r => rw [run_succ_of_refused n hx] at h; cases h

/-- A run over the first commands consumes just these, and does so with later commands issued too (R58). -/
theorem run_append (first later : List Command) {s t : State}
    (h : core.run first.length { s with port := first } = .next t) :
    t.port = [] ∧ core.run first.length { s with port := first ++ later } = .next { t with port := later } := by
  induction first generalizing s with
  | nil => cases h; exact ⟨rfl, rfl⟩
  | cons c rest ih =>
    obtain ⟨u, hstep, hrun⟩ := run_succ_eq_next h
    obtain ⟨rfl, hstep'⟩ := step_append later hstep
    obtain ⟨hport, hrun'⟩ := ih hrun
    exact ⟨hport, (run_succ_of_next _ hstep').trans hrun'⟩

end Sys2Proof.Machine

namespace Sys2Proof.Proofs

/-- Settles O11: by induction over the first commands, each of which is one step. -/
theorem commandsTakeEffectInOrder : Obligations.CommandsTakeEffectInOrder := by
  intro first later s t _ h
  exact Machine.run_append first later h

end Sys2Proof.Proofs
end

section
/-! PROOFS of 30_encoding.md: O1, O2, O3, O4, O5, O6, O7, O9, O26, O58. What the decoder accepts is said once
(`decodeWord_eq_ok_iff`): the opcode, the must-be-zero bits of its form, the legal descriptors. A form's must-be-zero
bits are a bound on the word (`mustBeZero_iff`), which with the opcode is also its match and mask (`and_mask_eq_iff`);
a word is put together again from its fields (`cmdWord_eq_of_fields`). -/

namespace Sys2Proof

open Sys2Proof.Laws Sys2Proof.Claims

/-! ## The fields of a command word (R71) -/

theorem extractLsb'_opcode_toNat (w : CmdWord) : (w.extractLsb' 0 6).toNat = w.toNat % 64 := by
  simp [BitVec.extractLsb'_toNat]

theorem extractLsb'_eq_zero_iff (w : CmdWord) (start len : Nat) :
    w.extractLsb' start len = 0#len ↔ w.toNat / 2 ^ start % 2 ^ len = 0 := by
  rw [BitVec.toNat_eq, BitVec.extractLsb'_toNat, Nat.shiftRight_eq_div_pow, BitVec.toNat_zero]

/-- A field above all the bits of a word is zero. -/
theorem extractLsb'_eq_zero_of_lt {w : CmdWord} {k start : Nat} (h : w.toNat < 2 ^ k) (hk : k ≤ start) (len : Nat) :
    w.extractLsb' start len = 0#len := by
  rw [extractLsb'_eq_zero_iff, Nat.div_eq_of_lt (h.trans_le (Nat.pow_le_pow_right (by decide) hk)), Nat.zero_mod]

/-- A command word whose top byte is zero is made of its opcode and its two descriptors. -/
theorem cmdWord_eq_of_fields {w : CmdWord} {op : Opcode} {d2 d : BitVec 9} (hop : op.bits = w.extractLsb' 0 6)
    (hd : d = w.extractLsb' 6 9) (hd2 : d2 = w.extractLsb' 15 9) (hrsv : w.extractLsb' 24 8 = 0#8) :
    cmdWord op d2 d = w := by
  rw [cmdWord, hop, hd, hd2, ← hrsv, BitVec.extractLsb'_append_extractLsb'_eq_extractLsb' (by rfl),
    BitVec.extractLsb'_append_extractLsb'_eq_extractLsb' (by rfl),
    BitVec.extractLsb'_append_extractLsb'_eq_extractLsb' (by rfl)]
  exact BitVec.extractLsb'_eq_self

/-- How many low bits of a command word a form uses: OPC, then one descriptor, then the second one. -/
def Form.usedBits : Form → Nat
  | .untyped => 6
  | .typed => 15
  | .convert => 24

/-- The must-be-zero fields of a form are all the bits above those it uses (R71). -/
theorem mustBeZero_iff (f : Form) (w : CmdWord) : MustBeZero f w ↔ w.toNat < 2 ^ f.usedBits := by
  have hw := w.isLt
  cases f <;> simp only [MustBeZero, Form.usedBits, extractLsb'_eq_zero_iff] <;> omega

theorem Form.usedBits_le (f : Form) : f.usedBits ≤ 24 := by cases f <;> decide

/-- A mask that keeps OPC and the bits from `k` on tests OPC, and that the bits from `k` on are zero (R77). -/
theorem and_mask_eq_iff {mask : CmdWord} {k : Nat} (hk : 6 ≤ k)
    (hmask : ∀ i < 32, mask.getLsbD i = decide (i < 6 ∨ k ≤ i)) (w : CmdWord) (opc : BitVec 6) :
    w &&& mask = opc.setWidth 32 ↔ w.extractLsb' 0 6 = opc ∧ w.toNat < 2 ^ k := by
  have hbits : w &&& mask = opc.setWidth 32 ↔
      ∀ i < 32, (w.getLsbD i && decide (i < 6 ∨ k ≤ i)) = opc.getLsbD i := by
    rw [BitVec.eq_of_getLsbD_eq_iff]
    refine forall₂_congr fun i hi => ?_
    rw [BitVec.getLsbD_and, hmask i hi, BitVec.getLsbD_setWidth, decide_eq_true hi, Bool.true_and]
  rw [hbits]
  constructor
  · intro h
    constructor
    · ext i hi
      simpa [hi, BitVec.getLsbD_eq_getElem] using h i (by omega)
    · refine Nat.lt_pow_two_of_testBit _ fun i hi => ?_
      rw [BitVec.testBit_toNat]
      by_cases hi32 : i < 32
      · simpa [hi, BitVec.getLsbD_of_ge opc i (by omega)] using h i hi32
      · exact BitVec.getLsbD_of_ge w i (by omega)
  · rintro ⟨rfl, hlt⟩ i hi
    by_cases h6 : i < 6
    · simp [h6]
    · by_cases hik : k ≤ i
      · have hzero : w.getLsbD i = false :=
          Nat.testBit_lt_two_pow (hlt.trans_le (Nat.pow_le_pow_right (by decide) hik))
        simp [hzero, h6]
      · simp [h6, hik]

/-! ## Type descriptors (R72, R73) -/

theorem Width.bits_ofCode (code : BitVec 2) : (Width.ofCode code).bits = 8 <<< code.toNat := by
  revert code; decide

theorem Width.code_ofCode (code : BitVec 2) : (Width.ofCode code).code = code := by
  revert code; decide

/-- Every descriptor is the one its type is written as (R73). -/
theorem FxType.descriptor_ofDescriptor (d : BitVec 9) : (FxType.ofDescriptor d).descriptor = d := by
  have hsign : BitVec.ofBool (d.getLsbD 2) = d.extractLsb' 2 1 := by
    ext i hi
    obtain rfl : i = 0 := by omega
    simp
  rw [FxType.descriptor, FxType.ofDescriptor, Width.code_ofCode, BitVec.ofNat_toNat, BitVec.setWidth_eq, hsign,
    BitVec.extractLsb'_append_extractLsb'_eq_extractLsb' (by rfl),
    BitVec.extractLsb'_append_extractLsb'_eq_extractLsb' (by rfl)]
  exact BitVec.extractLsb'_eq_self

/-! ## What the decoder accepts (R78) -/

/-- The descriptors that a form carries are legal. -/
def Form.TypesLegal : Form → FxType → FxType → Prop
  | .untyped, _, _ => True
  | .typed, t, _ => t.legal = true
  | .convert, t, t2 => t.legal = true ∧ t2.legal = true

/-- A word decodes exactly when it passes the checks of R78. -/
theorem decodeWord_eq_ok_iff {w : CmdWord} {op : Opcode} {t t2 : FxType} :
    decodeWord w = .ok (op, t, t2) ↔
      Opcode.ofBits (w.extractLsb' 0 6) = some op ∧ MustBeZero op.form w ∧ op.form.TypesLegal t t2 ∧
        t = FxType.ofDescriptor (w.extractLsb' 6 9) ∧ t2 = FxType.ofDescriptor (w.extractLsb' 15 9) := by
  constructor
  · intro h
    simp only [decodeWord] at h
    split at h
    · cases h
    · rename_i op' hop
      split at h
      · cases h
      · rename_i hrsv
        split at h <;> rename_i hform
        · split_ifs at h with hzero
          cases h
          exact ⟨hop, hform ▸ ⟨not_not.1 hrsv, not_not.1 hzero⟩, hform ▸ trivial, rfl, rfl⟩
        · split_ifs at h with hzero ht
          cases h
          exact ⟨hop, hform ▸ ⟨not_not.1 hrsv, not_not.1 hzero⟩, hform ▸ ht, rfl, rfl⟩
        · split_ifs at h with ht ht2
          cases h
          exact ⟨hop, hform ▸ not_not.1 hrsv, hform ▸ ⟨ht, ht2⟩, rfl, rfl⟩
  · rintro ⟨hop, hzero, hlegal, rfl, rfl⟩
    cases hform : op.form <;> rw [hform] at hzero hlegal
    · obtain ⟨hrsv, hfield⟩ := hzero
      simp [decodeWord, hop, hform, hrsv, hfield]
    · obtain ⟨hrsv, hfield⟩ := hzero
      have ht : FxType.legal _ = true := hlegal
      simp [decodeWord, hop, hform, hrsv, hfield, ht]
    · have hrsv : w.extractLsb' 24 8 = 0#8 := hzero
      obtain ⟨ht, ht2⟩ := hlegal
      simp [decodeWord, hop, hform, hrsv, ht, ht2]

theorem bits_of_decodeWord {w : CmdWord} {op : Opcode} {t t2 : FxType} (h : decodeWord w = .ok (op, t, t2)) :
    op.bits = w.extractLsb' 0 6 :=
  Opcode.ofBits_eq_some (decodeWord_eq_ok_iff.1 h).1

/-- The operation a word decodes to, by its opcode, its size and the types that its descriptor fields name. -/
theorem exists_decodeWord_iff {w : CmdWord} {op : Opcode} :
    (∃ t t2, decodeWord w = .ok (op, t, t2)) ↔
      (w.extractLsb' 0 6 = op.bits ∧ w.toNat < 2 ^ op.form.usedBits) ∧
        op.form.TypesLegal (FxType.ofDescriptor (w.extractLsb' 6 9)) (FxType.ofDescriptor (w.extractLsb' 15 9)) := by
  constructor
  · rintro ⟨t, t2, h⟩
    obtain ⟨hop, hzero, hlegal, rfl, rfl⟩ := decodeWord_eq_ok_iff.1 h
    exact ⟨⟨(Opcode.ofBits_eq_some hop).symm, (mustBeZero_iff _ w).1 hzero⟩, hlegal⟩
  · rintro ⟨⟨hop, hlt⟩, hlegal⟩
    have hsome : Opcode.ofBits (w.extractLsb' 0 6) = some op := by rw [hop, Opcode.ofBits_bits]
    exact ⟨_, _, decodeWord_eq_ok_iff.2 ⟨hsome, (mustBeZero_iff _ w).2 hlt, hlegal, rfl, rfl⟩⟩

/-- A command that decodes gives the instruction of its word's operation on its operand words. -/
theorem decode_eq_ok_iff {c : Command} {i : Instr} :
    decode c = .ok i ↔ ∃ op t t2, decodeWord c.cmd = .ok (op, t, t2) ∧ i = op.toInstr t t2 c.opa c.opb := by
  unfold decode
  split
  · rename_i op t t2 h
    rw [h]
    constructor
    · rintro ⟨⟩
      exact ⟨op, t, t2, rfl, rfl⟩
    · rintro ⟨_, _, _, ⟨⟩, rfl⟩
      rfl
  · rename_i h
    simp [h]

/-- The opcodes R79 lists are in no row of R76. -/
theorem Opcode.ofBits_eq_none (b : BitVec 6) (h : b.toNat ∈ [0x00, 0x05, 0x06, 0x07, 0x0E, 0x0F] ∨
    (0x16 ≤ b.toNat ∧ b.toNat ≤ 0x1F) ∨ 0x24 ≤ b.toNat) : Opcode.ofBits b = none := by
  revert b; decide

/-- A word with a reserved opcode fails the first check (R79). -/
theorem decode_of_reserved {c : Command} (h : Opcode.ofBits (c.cmd.extractLsb' 0 6) = none) :
    decode c = .error .reservedOpcode := by
  simp only [decode, decodeWord, h]

/-! ## Decoding an encoded word -/

theorem decodeWord_untypedWord {op : Opcode} (hf : op.form = .untyped) :
    ∃ t t2, decodeWord op.untypedWord = .ok (op, t, t2) := by
  obtain ⟨hop, hzero⟩ := untypedWord_fields op hf
  exact ⟨_, _, decodeWord_eq_ok_iff.2 ⟨hop, hzero, by rw [hf]; trivial, rfl, rfl⟩⟩

theorem decodeWord_typedWord {op : Opcode} (hf : op.form = .typed) {t : FxType} (ht : t.legal = true) :
    ∃ t2, decodeWord (op.typedWord t) = .ok (op, t, t2) := by
  obtain ⟨hop, hzero⟩ := typedWord_fields op t hf
  refine ⟨_, decodeWord_eq_ok_iff.2 ⟨hop, hzero, by rw [hf]; exact ht, ?_, rfl⟩⟩
  rw [Opcode.typedWord, cmdWord_type, FxType.ofDescriptor_descriptor ht]

theorem decodeWord_convertWord {op : Opcode} (hf : op.form = .convert) {t t2 : FxType} (ht : t.legal = true)
    (ht2 : t2.legal = true) : decodeWord (op.convertWord t t2) = .ok (op, t, t2) := by
  obtain ⟨hop, hzero⟩ := convertWord_fields op t t2 hf
  refine decodeWord_eq_ok_iff.2 ⟨hop, hzero, by rw [hf]; exact ⟨ht, ht2⟩, ?_, ?_⟩
  · rw [Opcode.convertWord, cmdWord_type, FxType.ofDescriptor_descriptor ht]
  · rw [Opcode.convertWord, cmdWord_secondType, FxType.ofDescriptor_descriptor ht2]

/-- A U-form command word with its operands: the descriptors it decodes to are not the instruction's. -/
theorem decode_untyped {op : Opcode} (hf : op.form = .untyped) {a b : Word} {i : Instr}
    (hi : ∀ t t2, op.toInstr t t2 a b = i) : decode ⟨op.untypedWord, a, b⟩ = .ok i := by
  obtain ⟨t, t2, h⟩ := decodeWord_untypedWord hf
  exact decode_eq_ok_iff.2 ⟨op, t, t2, h, (hi t t2).symm⟩

theorem decode_typed {op : Opcode} (hf : op.form = .typed) {t : FxType} (ht : t.legal = true) {a b : Word} {i : Instr}
    (hi : ∀ t2, op.toInstr t t2 a b = i) : decode ⟨op.typedWord t, a, b⟩ = .ok i := by
  obtain ⟨t2, h⟩ := decodeWord_typedWord hf ht
  exact decode_eq_ok_iff.2 ⟨op, t, t2, h, (hi t2).symm⟩

/-! ## Encoding a decoded instruction -/

/-- The command word of an operation with the descriptors its form carries. -/
def Opcode.word (op : Opcode) (t t2 : FxType) : CmdWord :=
  match op.form with
  | .untyped => op.untypedWord
  | .typed => op.typedWord t
  | .convert => op.convertWord t t2

theorem encode_toInstr_cmd (op : Opcode) (t t2 : FxType) (a b : Word) :
    (encode (op.toInstr t t2 a b)).cmd = op.word t t2 := by cases op <;> rfl

theorem encode_toInstr_opa (op : Opcode) (t t2 : FxType) (a b : Word) :
    (encode (op.toInstr t t2 a b)).opa = a := by cases op <;> rfl

theorem encode_toInstr_opb (op : Opcode) (t t2 : FxType) (a b : Word) :
    (encode (op.toInstr t t2 a b)).opb = if readsOpb op.bits.toNat then b else 0#64 := by cases op <;> rfl

theorem wellFormed_toInstr {op : Opcode} {t t2 : FxType} (h : op.form.TypesLegal t t2) (a b : Word) :
    (op.toInstr t t2 a b).wellFormed = true := by
  cases op with
  | fpConvert => exact Bool.and_eq_true_iff.2 h
  | svmSetAngle | svmMove | tblRead => rfl
  | _ => exact h

/-- A word that decodes is the one word of its operation and descriptors (R71). -/
theorem word_of_decodeWord {w : CmdWord} {op : Opcode} {t t2 : FxType} (h : decodeWord w = .ok (op, t, t2)) :
    op.word t t2 = w := by
  obtain ⟨-, hzero, -, rfl, rfl⟩ := decodeWord_eq_ok_iff.1 h
  have hop := bits_of_decodeWord h
  have hlt := (mustBeZero_iff _ w).1 hzero
  have hrsv := extractLsb'_eq_zero_of_lt hlt op.form.usedBits_le 8
  have hdesc := FxType.descriptor_ofDescriptor
  unfold Opcode.word
  split <;> rename_i hf <;> rw [hf] at hlt
  · have h6 : 0#9 = w.extractLsb' 6 9 := (extractLsb'_eq_zero_of_lt hlt (by decide) 9).symm
    have h15 : 0#9 = w.extractLsb' 15 9 := (extractLsb'_eq_zero_of_lt hlt (by decide) 9).symm
    exact cmdWord_eq_of_fields hop h6 h15 hrsv
  · have h15 : 0#9 = w.extractLsb' 15 9 := (extractLsb'_eq_zero_of_lt hlt (by decide) 9).symm
    exact cmdWord_eq_of_fields hop (hdesc _) h15 hrsv
  · exact cmdWord_eq_of_fields hop (hdesc _) (hdesc _) hrsv

/-! ## What an operation's instruction says of its form and its operands (R74, R75) -/

/-- Only FP_CONVERT uses the second descriptor. -/
theorem usedBits_le_of_ne_fpConvert {op : Opcode} {t t2 : FxType} {a b : Word}
    (h : ∀ t' t2' a', op.toInstr t t2 a b ≠ .fpConvert t' t2' a') : op.form.usedBits ≤ 15 := by
  cases op with
  | fpConvert => exact absurd rfl (h t t2 a)
  | _ => decide

/-- The commands that are neither FixedPoint commands nor SVM_UPDATE are the U-form ones. -/
theorem form_eq_untyped {op : Opcode} {t t2 : FxType} {a b : Word} (hfix : isFixedPoint (op.toInstr t t2 a b) = false)
    (hupd : isUpdate (op.toInstr t t2 a b) = false) : op.form = .untyped := by
  cases op with
  | svmSetAngle | svmMove | tblRead => rfl
  | svmUpdate => cases hupd
  | _ => cases hfix

/-- An operation that does not read OPB makes no use of it. -/
theorem toInstr_eq_of_not_readsOpb {op : Opcode} (h : readsOpb op.bits.toNat = false) (t t2 : FxType) (a b b' : Word) :
    op.toInstr t t2 a b = op.toInstr t t2 a b' := by
  cases op with
  | fpAdd | fpSub | fpMul | fpDiv | fpMod | fpEq | fpNe | fpLt | fpLe | fpGt | fpGe => cases h
  | _ => rfl

namespace Machine

/-! ## Illegal commands (R223) -/

/-- A step that accepts an illegal command writes status 1 and its sticky bit (R78). -/
theorem step_of_illegal {s : State} {c : Command} {rest : List Command} {e : Illegal} (hc : s.config.Legal)
    (hp : s.port = c :: rest) (hd : decode c = .error e) :
    step s = .next (withFault { s with port := rest } 1) :=
  step_of_decode_error hc hp hd

/-! ## The operand bits a command reads (R75) -/

theorem setWidth_eq_of_mod_eq {k : Nat} {a a' : Word} (h : a.toNat % 2 ^ k = a'.toNat % 2 ^ k) :
    a.setWidth k = a'.setWidth k :=
  BitVec.eq_of_toNat_eq (by rw [BitVec.toNat_setWidth, BitVec.toNat_setWidth, h])

theorem valT_eq_of_mod_eq {t : FxType} {a a' : Word} (h : a.toNat % 2 ^ t.width.bits = a'.toNat % 2 ^ t.width.bits) :
    valT t a = valT t a' := by
  rw [valT, valT, setWidth_eq_of_mod_eq h]

theorem sext32_eq_of_mod_eq {a a' : Word} (h : a.toNat % 2 ^ 32 = a'.toNat % 2 ^ 32) : sext32 a = sext32 a' := by
  rw [sext32, sext32, setWidth_eq_of_mod_eq h]

theorem zext32_eq_of_mod_eq {a a' : Word} (h : a.toNat % 2 ^ 32 = a'.toNat % 2 ^ 32) : zext32 a = zext32 a' := by
  rw [zext32, zext32, setWidth_eq_of_mod_eq h]

end Machine
end Sys2Proof

namespace Sys2Proof.Proofs

open Sys2Proof.Machine Sys2Proof.Claims

/-- Settles O2: the fields of an encoded word pass the checks of its form and read back as they were written. -/
theorem decodeOfEncodeIsIdentity : Obligations.DecodeOfEncodeIsIdentity := by
  intro i h
  cases i with
  | fpConvert t t2 a =>
    obtain ⟨ht, ht2⟩ := Bool.and_eq_true_iff.1 h
    exact decode_eq_ok_iff.2 ⟨_, t, t2, decodeWord_convertWord rfl ht ht2, rfl⟩
  | svmSetAngle | svmMove | tblRead => exact decode_untyped rfl fun _ _ => rfl
  | _ => exact decode_typed rfl h fun _ => rfl

/-- Settles O3: the word is the one of its operation and descriptors, and each operation encodes the operands it
reads. -/
theorem encodeOfDecodeIsTheWord : Obligations.EncodeOfDecodeIsTheWord := by
  intro c i h
  obtain ⟨op, t, t2, hw, rfl⟩ := decode_eq_ok_iff.1 h
  obtain ⟨-, -, hlegal, -⟩ := decodeWord_eq_ok_iff.1 hw
  refine ⟨wellFormed_toInstr hlegal _ _, ?_, encode_toInstr_opa .., ?_⟩
  · rw [encode_toInstr_cmd, word_of_decodeWord hw]
  · rw [encode_toInstr_opb, bits_of_decodeWord hw, extractLsb'_opcode_toNat]

/-- Settles O4: a mask tests the opcode and the must-be-zero bits of its form. -/
theorem decodeMeetsMatchAndMask : Obligations.DecodeMeetsMatchAndMask := by
  intro w op
  rw [exists_decodeWord_iff]
  cases hf : op.form with
  | untyped => exact (and_iff_left trivial).trans (and_mask_eq_iff (k := 6) (by decide) (by decide) w op.bits).symm
  | typed => exact and_congr_left' (and_mask_eq_iff (k := 15) (by decide) (by decide) w op.bits).symm
  | convert => exact and_congr_left' (and_mask_eq_iff (k := 24) (by decide) (by decide) w op.bits).symm

/-- Settles O5: no row of the opcode map has a reserved opcode, so the first check fails. -/
theorem reservedOpcodesAreIllegal : Obligations.ReservedOpcodesAreIllegal := by
  intro s c rest hlegal hport hopc
  rw [← extractLsb'_opcode_toNat] at hopc
  exact step_of_illegal hlegal hport (decode_of_reserved (Opcode.ofBits_eq_none _ hopc))

/-- Settles O6: a word that decodes has no bit above those its form uses. -/
theorem mustBeZeroBitsAreIllegal : Obligations.MustBeZeroBitsAreIllegal := by
  intro c i h
  obtain ⟨op, t, t2, hw, rfl⟩ := decode_eq_ok_iff.1 h
  obtain ⟨⟨-, hlt⟩, -⟩ := exists_decodeWord_iff.1 ⟨t, t2, hw⟩
  have hbound : ∀ {n}, op.form.usedBits ≤ n → c.cmd.toNat < 2 ^ n :=
    fun hn => hlt.trans_le (Nat.pow_le_pow_right (by decide) hn)
  refine ⟨hbound op.form.usedBits_le, fun hne => hbound (usedBits_le_of_ne_fpConvert hne), ?_⟩
  rintro ⟨hfix, hupd⟩
  exact hbound (by rw [form_eq_untyped hfix hupd]; rfl)

/-- Settles O7: the commands that do not read OPB carry none; the others read OPA and OPB through `val_T`, `sext_32`
and `zext_32`, which see the low bits only. -/
theorem ignoredOperandBitsHaveNoEffect : Obligations.IgnoredOperandBitsHaveNoEffect := by
  refine ⟨fun w opa b b' i i' h h' hopc => ?_, fun t t2 a a' b b' s ha hb => ?_, fun a a' s ha => ?_⟩
  · obtain ⟨op, t, t2, hw, rfl⟩ := decode_eq_ok_iff.1 h
    obtain ⟨op', t', t2', hw', rfl⟩ := decode_eq_ok_iff.1 h'
    cases hw.symm.trans hw'
    refine toInstr_eq_of_not_readsOpb ?_ t t2 opa b b'
    rw [bits_of_decodeWord hw, extractLsb'_opcode_toNat]
    simp only [readsOpb, Bool.or_eq_false_iff, Bool.and_eq_false_iff, decide_eq_false_iff_not]
    omega
  · have hva := valT_eq_of_mod_eq ha
    have hvb := valT_eq_of_mod_eq hb
    simp only [exec, execFpFromRaw, execFpToReal, execFpToFloat, execFpConvert, execSvmUpdate, execFpAdd, execFpSub,
      execFpMul, execFpDiv, execFpMod, execFpEq, execFpNe, execFpLt, execFpLe, execFpGt, execFpGe, compareT, hva, hvb,
      and_self]
  · simp only [exec, execSvmSetAngle, execSvmMove, execTblRead, sext32_eq_of_mod_eq ha, zext32_eq_of_mod_eq ha,
      and_self]

/-- Settles O1: the words evaluated field by field. -/
theorem sampleWordsDecode : Obligations.SampleWordsDecode :=
  ⟨rfl, rfl, rfl, rfl, rfl, rfl, rfl, rfl⟩

/-- Settles O9: an illegal command raises ILLEGAL_COMMAND. -/
theorem illegalCommandOnlySetsStatusAndFaults : Obligations.IllegalCommandOnlySetsStatusAndFaults :=
  fun _ _ _ _ hlegal hport hdecode => step_of_illegal hlegal hport hdecode

/-- Settles O26: each field of the descriptor is a digit of its number. -/
theorem descriptorReadsWidthSignFraction : Obligations.DescriptorReadsWidthSignFraction := by
  intro d
  have hwidth : (FxType.ofDescriptor d).width.bits = 8 <<< (d.toNat % 4) := by
    rw [FxType.ofDescriptor, Width.bits_ofCode, BitVec.extractLsb'_toNat]
    rfl
  have hsign : (FxType.ofDescriptor d).signed = true ↔ d.toNat / 4 % 2 = 1 := by
    rw [FxType.ofDescriptor, BitVec.getLsbD, Nat.testBit_eq_decide_div_mod_eq, decide_eq_true_eq]
  have hfrac : (FxType.ofDescriptor d).frac = d.toNat / 8 := by
    have hd := d.isLt
    show (d.extractLsb' 3 6).toNat = _
    rw [BitVec.extractLsb'_toNat, Nat.shiftRight_eq_div_pow]
    omega
  refine ⟨hwidth, hsign, hfrac, ?_⟩
  rw [FxType.legal, decide_eq_true_eq, hwidth, hfrac]

/-- Settles O58: the assembler evaluated on each pseudo-instruction and on its expansion. -/
theorem pseudoInstructionsExpand : Obligations.PseudoInstructionsExpand := by
  refine ⟨?_, ?_, ?_, ?_, ?_, ?_, ?_, ?_, ?_, ?_, ?_, ?_, ?_, ?_, ?_⟩ <;> decide

end Sys2Proof.Proofs
end

section
/-! PROOFS of 41_fixed_point.md, the commands on integers: O24, O27, O31, O32, O33, O34, O35, O36. The encoding of a
typed command is proved once (`tForm_of_typed`), and what `out_T(wrap_T(n))` holds (`holdsReduced_wrapT`); a command's
own part is then the floor or the remainder its rule names. -/

namespace Sys2Proof

open Sys2Proof.Machine Sys2Proof.Claims

/-! ## The encodings of the FixedPoint commands (R71, R73) -/

theorem Width.code_toNat (w : Width) : w.code.toNat = widthCode w := by cases w <;> rfl

/-- The number of a legal type's descriptor is made of its three fields. -/
theorem descriptor_toNat {t : FxType} (h : t.legal = true) : t.descriptor.toNat = descriptorValue t := by
  have hfrac : t.frac % 2 ^ 6 = t.frac := by
    have := of_decide_eq_true h
    omega
  have hsign : (BitVec.ofBool t.signed).toNat = if t.signed then 1 else 0 := by cases t.signed <;> rfl
  rw [FxType.descriptor, toNat_append_eq_add, toNat_append_eq_add, BitVec.toNat_ofNat, hfrac, hsign, Width.code_toNat,
    descriptorValue]
  split <;> omega

theorem cmdWord_toNat (op : Opcode) (d2 d : BitVec 9) :
    (cmdWord op d2 d).toNat = op.bits.toNat + 2 ^ 6 * d.toNat + 2 ^ 15 * d2.toNat := by
  simp only [cmdWord, toNat_append_eq_add, BitVec.toNat_zero]
  omega

theorem ofNat_eq_cmdWord (op : Opcode) (d2 d : BitVec 9) :
    BitVec.ofNat 32 (op.bits.toNat + 2 ^ 6 * d.toNat + 2 ^ 15 * d2.toNat) = cmdWord op d2 d := by
  rw [← cmdWord_toNat, BitVec.ofNat_toNat, BitVec.setWidth_eq]

/-- The T-form encoding of an operation that takes one type. -/
theorem tForm_of_typed {op : Opcode} (hf : op.form = .typed) {t : FxType} {a b : Word} {i : Instr}
    (hi : ∀ t2, op.toInstr t t2 a b = i) : TForm op.bits.toNat t a b i := by
  intro ht
  rw [← descriptor_toNat ht]
  exact ofNat_eq_cmdWord op 0#9 t.descriptor ▸ decode_typed hf ht hi

/-- The C-form encoding of FP_CONVERT. -/
theorem cForm_fpConvert (t t2 : FxType) (a b : Word) : CForm 0x0D t t2 a b (.fpConvert t t2 a) := by
  intro ht ht2
  have hword := ofNat_eq_cmdWord .fpConvert t2.descriptor t.descriptor
  rw [descriptor_toNat ht, descriptor_toNat ht2] at hword
  exact hword ▸ decode_eq_ok_iff.2 ⟨_, t, t2, decodeWord_convertWord rfl ht ht2, rfl⟩

namespace Machine

/-! ## How a FixedPoint command ends -/

/-- A FixedPoint command writes the same result in every state, or raises the same fault in every state (R140). -/
theorem exec_fixedPoint_cases {i : Instr} (h : isFixedPoint i = true) :
    (∃ v, ∀ s, exec i s = .next (s.finishRes v)) ∨ ∃ e, ∀ s, exec i s = .next (s.raise e) := by
  cases i with
  | svmSetAngle | svmMove | svmUpdate | tblRead => cases h
  | fpFromReal t a =>
    by_cases hnan : isNanOrInf a
    · exact .inr ⟨_, fun s => if_pos hnan⟩
    · exact .inl ⟨_, fun s => if_neg hnan⟩
  | fpDiv t a b | fpMod t a b =>
    by_cases hzero : valT t b = 0
    · exact .inr ⟨_, fun s => if_pos hzero⟩
    · exact .inl ⟨_, fun s => if_neg hzero⟩
  | _ => exact .inl ⟨_, fun _ => rfl⟩

/-- `out_T(wrap_T(n))` is `n` reduced into T (R14). -/
theorem holdsReduced_wrapT (t : FxType) (n : Int) : HoldsReduced t n (outT t (wrapT t n)) :=
  ⟨wrapT t n, wrapT_inRange t n, by simpa using wrapT_modEq t n, outT_eq_ofInt (wrapT_inRange t n)⟩

/-! ## Shifts and quotients -/

/-- `asr` is the floor of the rational quotient. -/
theorem asr_eq_floor (v : Int) (k : Nat) : asr v k = ⌊(v : ℚ) / 2 ^ k⌋ := by
  have h := Rat.floor_intCast_div_natCast v (2 ^ k)
  push_cast at h
  rw [h]
  simp [asr, floorDiv, pow2]

/-- The shift of FP_CONVERT, to the left or to the right, is the floor of one rational (R124). -/
theorem rescale_eq_floor (v : Int) (frac frac2 : Nat) :
    rescale v frac frac2 = ⌊(v : ℚ) * 2 ^ frac2 / 2 ^ frac⌋ := by
  unfold rescale
  split
  · rename_i hle
    have hexact : (v : ℚ) * 2 ^ frac2 / 2 ^ frac = ((v * pow2 (frac2 - frac) : Int) : ℚ) := by
      push_cast
      rw [pow_sub₀ (2 : ℚ) two_ne_zero hle, mul_div_assoc, div_eq_mul_inv]
    rw [hexact, Int.floor_intCast]
  · rename_i hlt
    rw [asr_eq_floor, mul_div_assoc, pow_sub₀ (2 : ℚ) two_ne_zero (by omega), div_eq_mul_inv, mul_inv, inv_inv,
      div_eq_mul_inv, mul_comm (2 ^ frac2 : ℚ)]

/-- A remainder of truncating division is smaller than the divisor. -/
theorem abs_tmod_lt (a : Int) {b : Int} (hb : b ≠ 0) : |a.tmod b| < |b| := by
  rw [Int.abs_eq_natAbs, Int.abs_eq_natAbs, Int.natAbs_tmod]
  exact_mod_cast Nat.mod_lt _ (Int.natAbs_pos.2 hb)

/-- A remainder of truncating division does not oppose the dividend's sign. -/
theorem tmod_mul_nonneg (a b : Int) : 0 ≤ a.tmod b * a := by
  rcases le_total 0 a with ha | ha
  · exact mul_nonneg (Int.tmod_nonneg b ha) ha
  · have hneg := Int.tmod_nonneg b (neg_nonneg.2 ha)
    rw [Int.neg_tmod] at hneg
    exact mul_nonneg_of_nonpos_of_nonpos (by omega) ha

/-- A remainder by an integer of T is again one (R120). -/
theorem tmod_inRange {t : FxType} {a b : Int} (ha : InRange t a) (hb : InRange t b) (hne : b ≠ 0) :
    InRange t (a.tmod b) := by
  have hlt := abs_lt.1 (abs_tmod_lt a hne)
  unfold InRange at *
  split at ha
  · rename_i hs
    rw [if_pos hs] at hb ⊢
    have habs : |b| ≤ pow2 (t.width.bits - 1) := abs_le.2 ⟨hb.1, hb.2.le⟩
    omega
  · rename_i hs
    rw [if_neg hs] at hb ⊢
    rw [abs_of_nonneg hb.1] at hlt
    exact ⟨Int.tmod_nonneg b ha.1, by omega⟩

/-! ## Comparisons -/

/-- A comparison writes 1 when its relation holds and 0 when it does not (R131). -/
theorem compareT_spec (p : Int → Int → Prop) [DecidableRel p] (t : FxType) (a b : Word) (s : State) :
    ∃ r, (r = 1#64 ∧ p (valT t a) (valT t b) ∨ r = 0#64 ∧ ¬ p (valT t a) (valT t b)) ∧
      compareT (fun x y => decide (p x y)) t a b s = .next (withRes s r) := by
  refine ⟨_, ?_, rfl⟩
  by_cases hp : p (valT t a) (valT t b)
  · exact .inl ⟨if_pos (decide_eq_true hp), hp⟩
  · exact .inr ⟨if_neg (by simpa using hp), hp⟩

end Machine
end Sys2Proof

namespace Sys2Proof.Proofs

open Sys2Proof.Machine Sys2Proof.Claims

/-- Settles O24: whether the command faults, and the result it writes, depend on no state. -/
theorem fixedPointDependsOnOperandsOnly : Obligations.FixedPointDependsOnOperandsOnly := by
  intro i s s' h
  rcases exec_fixedPoint_cases h with ⟨v, hx⟩ | ⟨e, hx⟩
  · exact ⟨_, _, hx s, hx s', rfl, rfl, fun _ => rfl⟩
  · exact ⟨_, _, hx s, hx s', rfl, rfl, fun hcode => absurd (State.raise_code s e ▸ hcode) e.code_ne_zero⟩

/-- Settles O27: the integer FP_FROM_RAW extends is congruent to the whole of OPA (`valT_modEq`). -/
theorem fromRawTakesLowBits : Obligations.FromRawTakesLowBits := by
  intro t a b s
  exact ⟨tForm_of_typed (op := .fpFromRaw) rfl fun _ => rfl, _,
    ⟨valT t a, valT_inRange t a, by simpa using valT_modEq t a, outT_eq_ofInt (valT_inRange t a)⟩, rfl⟩

/-- Settles O31: the exact sum and difference, wrapped. -/
theorem addAndSubWrap : Obligations.AddAndSubWrap := by
  intro t a b s
  exact ⟨⟨tForm_of_typed (op := .fpAdd) rfl fun _ => rfl, _, holdsReduced_wrapT t _, rfl⟩,
    tForm_of_typed (op := .fpSub) rfl fun _ => rfl, _, holdsReduced_wrapT t _, rfl⟩

/-- Settles O32: `asr` of the exact product is the floor of the rational one. -/
theorem mulFloorsExactProduct : Obligations.MulFloorsExactProduct := by
  intro t a b s
  refine ⟨tForm_of_typed (op := .fpMul) rfl fun _ => rfl, _, ?_, rfl⟩
  rw [← Int.cast_mul, ← asr_eq_floor]
  exact holdsReduced_wrapT t _

/-- Settles O33: what the truncated quotient leaves is the remainder with the sign of the scaled dividend, which is the
sign of the dividend. -/
theorem divTruncatesExactQuotient : Obligations.DivTruncatesExactQuotient := by
  intro t a b s
  refine ⟨tForm_of_typed (op := .fpDiv) rfl fun _ => rfl, fun hzero => if_pos hzero, fun hne => ?_⟩
  have hrem : valT t a * 2 ^ t.frac - truncDiv (valT t a * pow2 t.frac) (valT t b) * valT t b =
      (valT t a * pow2 t.frac).tmod (valT t b) := by
    rw [Int.tmod_def, truncDiv, mul_comm (valT t b), pow2]
    push_cast
    rfl
  refine ⟨_, _, ?_, ?_, holdsReduced_wrapT t _, if_neg hne⟩ <;> rw [hrem]
  · exact abs_tmod_lt _ hne
  · refine nonneg_of_mul_nonneg_left ?_ (pow2_pos t.frac)
    rw [mul_assoc]
    exact tmod_mul_nonneg _ _

/-- Settles O34: the remainder of truncating division, which needs no reduction into T. -/
theorem modHasDividendsSign : Obligations.ModHasDividendsSign := by
  intro t a b s
  refine ⟨tForm_of_typed (op := .fpMod) rfl fun _ => rfl, fun hzero => if_pos hzero, fun hne => ?_⟩
  have hrange := tmod_inRange (valT_inRange t a) (valT_inRange t b) hne
  refine ⟨_, _, (Int.tdiv_mul_add_tmod _ _).symm, abs_tmod_lt _ hne, tmod_mul_nonneg _ _, hrange, ?_⟩
  rw [← outT_eq_ofInt hrange, ← truncRem_eq_tmod]
  exact if_neg hne

/-- Settles O35: both directions of the shift are one floor (`rescale_eq_floor`). -/
theorem convertShiftsAndWraps : Obligations.ConvertShiftsAndWraps := by
  intro t t2 a b s
  refine ⟨cForm_fpConvert t t2 a b, _, ?_, rfl⟩
  rw [← rescale_eq_floor]
  exact holdsReduced_wrapT t2 _

/-- Settles O36: each comparison is `compareT` of its relation. -/
theorem comparisonsWriteTruthValues : Obligations.ComparisonsWriteTruthValues := by
  intro t a b s
  refine ⟨⟨tForm_of_typed (op := .fpEq) rfl fun _ => rfl, compareT_spec (· = ·) t a b s⟩,
    ⟨tForm_of_typed (op := .fpNe) rfl fun _ => rfl, ?_⟩,
    ⟨tForm_of_typed (op := .fpLt) rfl fun _ => rfl, compareT_spec (· < ·) t a b s⟩,
    ⟨tForm_of_typed (op := .fpLe) rfl fun _ => rfl, compareT_spec (· ≤ ·) t a b s⟩,
    ⟨tForm_of_typed (op := .fpGt) rfl fun _ => rfl, compareT_spec (· > ·) t a b s⟩,
    ⟨tForm_of_typed (op := .fpGe) rfl fun _ => rfl, compareT_spec (· ≥ ·) t a b s⟩⟩
  have hne := compareT_spec (· ≠ ·) t a b s
  rwa [not_ne_iff] at hne

end Sys2Proof.Proofs
end

section
/-! SUPPORT of 41_fixed_point.md: binary formats. In units of the step at the value's exponent (`ulp`) the rounded
significand is the integer nearest the value, and every other value of the format is an integer too or lies below the
value's binade (`lt_or_eq_mul_ulp`); so rounding to the nearest integer is rounding to the nearest value of the format
(`roundEvenMagnitude_best`), and one sign rule takes it to negative values (`rounded_best`). -/

namespace Sys2Proof.Binary

open Sys2Proof.Machine Sys2Proof.Claims

/-! ## Rounding to the nearest integer -/

/-- `q` is a natural number nearest `x`, the even one of two (R15). -/
def NearestEven (q : Nat) (x : ℚ) : Prop := |q - x| ≤ 1 / 2 ∧ (|q - x| = 1 / 2 → q % 2 = 0)

theorem nearestEven_of_abs_lt {q : Nat} {x : ℚ} (h : |q - x| < 1 / 2) : NearestEven q x :=
  ⟨h.le, fun heq => absurd heq h.ne⟩

/-- No integer is nearer, and where another one is equally near, `q` is even; nor is a number below an integer that is
itself at most `x`. -/
theorem NearestEven.best {q b : Nat} {x r : ℚ} (h : NearestEven q x) (hb : (b : ℚ) ≤ x)
    (hr : r < b ∨ ∃ k : Int, r = k) : |q - x| ≤ |r - x| ∧ (|q - x| = |r - x| → r ≠ q → q % 2 = 0) := by
  obtain ⟨hhalf, heven⟩ := h
  have hint : ∀ k : Int, (k : ℚ) ≠ q → 1 ≤ |q - x| + |k - x| := fun k hne => by
    have hone : (1 : ℚ) ≤ |(q : ℚ) - k| := by
      have hne' : (q : Int) - k ≠ 0 := sub_ne_zero.2 fun h => hne (by exact_mod_cast h.symm)
      exact_mod_cast Int.one_le_abs hne'
    exact hone.trans (abs_sub_comm (k : ℚ) x ▸ abs_sub_le _ _ _)
  by_cases hrq : r = q
  · exact ⟨by rw [hrq], fun _ hne => absurd hrq hne⟩
  rcases hr with hlt | ⟨k, rfl⟩
  · have hbest : |q - x| ≤ x - b := by
      by_cases hbq : (b : ℚ) = q
      · rw [← hbq, abs_of_nonpos (by linarith)]
        linarith
      · have := hint b hbq
        rw [Int.cast_natCast, abs_of_nonpos (by linarith : (b : ℚ) - x ≤ 0)] at this
        linarith
    rw [abs_of_nonpos (by linarith : r - x ≤ 0)]
    exact ⟨by linarith, fun heq => absurd heq (by linarith)⟩
  · have := hint k hrq
    exact ⟨by linarith, fun heq _ => heven (by linarith)⟩

/-- Rounding up above the half, and at the half when the quotient is odd, gives the nearest even. -/
theorem nearestEven_div (m : Nat) {h : Nat} (hh : 0 < h) :
    NearestEven
      (if h < m % (2 * h) ∨ (m % (2 * h) = h ∧ m / (2 * h) % 2 = 1) then m / (2 * h) + 1 else m / (2 * h))
      (m / (2 * h)) := by
  have hpos : (0 : ℚ) < 2 * h := by exact_mod_cast Nat.mul_pos two_pos hh
  have hx : (m : ℚ) / (2 * h) = (m / (2 * h) : Nat) + (m % (2 * h) : Nat) / (2 * h) := by
    have hdiv : (m : ℚ) = 2 * h * (m / (2 * h) : Nat) + (m % (2 * h) : Nat) := by
      exact_mod_cast (Nat.div_add_mod m (2 * h)).symm
    rw [div_eq_iff hpos.ne', add_mul, div_mul_cancel₀ _ hpos.ne', mul_comm _ (2 * h : ℚ)]
    exact hdiv
  rw [hx]
  have hr : m % (2 * h) < 2 * h := Nat.mod_lt _ (by omega)
  generalize m / (2 * h) = q
  generalize m % (2 * h) = r at *
  rcases lt_trichotomy r h with hlt | rfl | hgt
  · rw [if_neg (by omega)]
    have ht : (r : ℚ) / (2 * h) < 1 / 2 := by
      rw [div_lt_iff₀ hpos]; linarith [(Nat.cast_lt (α := ℚ)).2 hlt]
    refine nearestEven_of_abs_lt ?_
    rw [sub_add_cancel_left, abs_neg, abs_of_nonneg (by positivity)]
    exact ht
  · have ht : (r : ℚ) / (2 * r) = 1 / 2 := by field_simp
    rw [ht]
    split
    · refine ⟨le_of_eq ?_, fun _ => by omega⟩
      push_cast
      rw [abs_of_nonneg] <;> linarith
    · refine ⟨le_of_eq ?_, fun _ => by omega⟩
      rw [sub_add_cancel_left, abs_neg, abs_of_nonneg (by norm_num)]
  · rw [if_pos (.inl hgt)]
    have ht : 1 / 2 < (r : ℚ) / (2 * h) := by
      rw [lt_div_iff₀ hpos]; linarith [(Nat.cast_lt (α := ℚ)).2 hgt]
    have ht1 : (r : ℚ) / (2 * h) < 1 := by
      rw [div_lt_one hpos]; exact_mod_cast hr
    refine nearestEven_of_abs_lt ?_
    push_cast
    rw [abs_lt]
    constructor <;> linarith

/-! ## Binary formats (R15) -/

/-- The significand of magnitude bits `n` in a format with `sig` fraction bits, as an integer. -/
def significand (sig n : Nat) : Nat := if n / 2 ^ sig = 0 then n % 2 ^ sig else 2 ^ sig + n % 2 ^ sig

/-- The exponent field; subnormals share the exponent of the smallest normals. -/
def scale (sig n : Nat) : Nat := max (n / 2 ^ sig) 1

/-- The rational that magnitude bits `n` stand for. -/
def magnitude (sig bias n : Nat) : ℚ := significand sig n * 2 ^ ((scale sig n : Int) - bias - sig)

/-- `-1` for a set sign bit. -/
def sign (neg : Bool) : ℚ := if neg then -1 else 1

theorem magnitude_nonneg (sig bias n : Nat) : 0 ≤ magnitude sig bias n := by
  unfold magnitude; positivity

theorem significand_lt (sig n : Nat) : significand sig n < 2 ^ (sig + 1) := by
  have := Nat.mod_lt n (Nat.two_pow_pos sig)
  unfold significand
  split <;> omega

/-- The value by its fields, as R15 writes it: subnormal, or with the leading one. -/
theorem magnitude_eq_fields (sig bias n : Nat) :
    magnitude sig bias n =
      if ((n / 2 ^ sig : Nat) : Int) = 0 then ((n % 2 ^ sig : Nat) : ℚ) / 2 ^ sig * 2 ^ (1 - bias : Int)
      else (1 + ((n % 2 ^ sig : Nat) : ℚ) / 2 ^ sig) * 2 ^ (((n / 2 ^ sig : Nat) : Int) - bias) := by
  have hshift : ∀ e : Int, (2 : ℚ) ^ (e - bias - sig) = 2 ^ (e - bias) / 2 ^ sig := fun e => by
    rw [zpow_sub₀ two_ne_zero, zpow_natCast]
  unfold magnitude significand scale
  rw [hshift]
  by_cases hzero : n / 2 ^ sig = 0
  · rw [if_pos hzero, if_pos (by exact_mod_cast hzero), hzero, max_eq_right zero_le_one, Nat.cast_one]
    field_simp
  · rw [if_neg hzero, if_neg (by exact_mod_cast hzero), max_eq_left (Nat.one_le_iff_ne_zero.2 hzero)]
    push_cast
    field_simp

/-- The value of a normal pattern. -/
theorem magnitude_of_fields {sig bias e f : Nat} (he : 1 ≤ e) (hf : f < 2 ^ sig) :
    magnitude sig bias (e * 2 ^ sig + f) = (2 ^ sig + f : Nat) * 2 ^ ((e : Int) - bias - sig) := by
  have hexp : (e * 2 ^ sig + f) / 2 ^ sig = e := by
    rw [mul_comm, Nat.mul_add_div (Nat.two_pow_pos sig), Nat.div_eq_of_lt hf, add_zero]
  have hfrac : (e * 2 ^ sig + f) % 2 ^ sig = f := by rw [Nat.mul_add_mod', Nat.mod_eq_of_lt hf]
  rw [magnitude, significand, scale, hexp, hfrac, if_neg (by omega), max_eq_left he]

/-- Exponent and significand put together by addition, also when the significand carries into the exponent. -/
theorem magnitude_add {sig bias e q : Nat} (he : 1 ≤ e) (hlo : 2 ^ sig ≤ q) (hhi : q ≤ 2 ^ (sig + 1)) :
    magnitude sig bias (e * 2 ^ sig + (q - 2 ^ sig)) = q * 2 ^ ((e : Int) - bias - sig) := by
  rw [pow_succ] at hhi
  rcases hhi.lt_or_eq with hlt | rfl
  · rw [magnitude_of_fields he (by omega), Nat.add_sub_cancel' hlo]
  · have hcarry : e * 2 ^ sig + (2 ^ sig * 2 - 2 ^ sig) = (e + 1) * 2 ^ sig + 0 := by
      rw [add_mul]
      omega
    rw [hcarry, magnitude_of_fields (by omega) (Nat.two_pow_pos sig)]
    push_cast
    rw [show ((e : Int) + 1 - bias - sig) = (e - bias - sig) + 1 by ring, zpow_add_one₀ two_ne_zero]
    ring

/-- Every value of the format is below `2^(e - bias)` or a multiple of the step of the exponent `e`. -/
theorem magnitude_lt_or_eq_mul (sig bias e n : Nat) :
    magnitude sig bias n < 2 ^ ((e : Int) - bias) ∨
      ∃ k : Nat, magnitude sig bias n = k * 2 ^ ((e : Int) - bias - sig) := by
  rcases lt_or_ge (scale sig n) e with hlt | hge
  · left
    have hsig : (significand sig n : ℚ) < 2 ^ ((sig : Int) + 1) := by exact_mod_cast significand_lt sig n
    calc magnitude sig bias n < 2 ^ ((sig : Int) + 1) * 2 ^ ((scale sig n : Int) - bias - sig) :=
          mul_lt_mul_of_pos_right hsig (by positivity)
      _ = 2 ^ ((scale sig n : Int) + 1 - bias) := by rw [← zpow_add₀ two_ne_zero]; congr 1; ring
      _ ≤ 2 ^ ((e : Int) - bias) := zpow_le_zpow_right₀ one_le_two (by omega)
  · right
    refine ⟨significand sig n * 2 ^ (scale sig n - e), ?_⟩
    push_cast
    rw [magnitude, mul_assoc, ← zpow_natCast, ← zpow_add₀ two_ne_zero]
    congr 2
    omega

/-! ## Rounding into a format -/

/-- `m` scaled to a significand of the format: `m / 2^frac` is this many steps. -/
def inUlps (sig m : Nat) : ℚ := m * 2 ^ ((sig : Int) - m.log2)

theorem le_inUlps {m : Nat} (hm : m ≠ 0) (sig : Nat) : ((2 ^ sig : Nat) : ℚ) ≤ inUlps sig m := by
  have hlog : (2 : ℚ) ^ (m.log2 : Int) ≤ m := by exact_mod_cast Nat.log2_self_le hm
  calc ((2 ^ sig : Nat) : ℚ) = 2 ^ (m.log2 : Int) * 2 ^ ((sig : Int) - m.log2) := by
        rw [← zpow_add₀ two_ne_zero, add_sub_cancel]
        norm_cast
    _ ≤ inUlps sig m := mul_le_mul_of_nonneg_right hlog (by positivity)

theorem inUlps_lt (sig m : Nat) : inUlps sig m < ((2 ^ (sig + 1) : Nat) : ℚ) := by
  have hlog : (m : ℚ) < 2 ^ ((m.log2 : Int) + 1) := by exact_mod_cast Nat.lt_log2_self
  calc inUlps sig m < 2 ^ ((m.log2 : Int) + 1) * 2 ^ ((sig : Int) - m.log2) :=
        mul_lt_mul_of_pos_right hlog (by positivity)
    _ = ((2 ^ (sig + 1) : Nat) : ℚ) := by
        rw [← zpow_add₀ two_ne_zero, show (m.log2 : Int) + 1 + (sig - m.log2) = (sig + 1 : Nat) by push_cast; ring]
        norm_cast

/-- A short number fills its significand exactly. -/
theorem roundEvenSignificand_of_le {sig m : Nat} (h : m.log2 ≤ sig) :
    (roundEvenSignificand sig m : ℚ) = inUlps sig m := by
  rw [roundEvenSignificand, if_pos h, inUlps, ← Nat.cast_sub h]
  norm_cast

theorem nearestEven_roundEvenSignificand (sig m : Nat) :
    NearestEven (roundEvenSignificand sig m) (inUlps sig m) := by
  rcases le_or_gt m.log2 sig with hle | hlt
  · refine nearestEven_of_abs_lt ?_
    rw [roundEvenSignificand_of_le hle]
    norm_num
  · obtain ⟨k, hk⟩ : ∃ k, m.log2 - sig = k + 1 := ⟨m.log2 - sig - 1, by omega⟩
    have hulps : inUlps sig m = m / (2 * (2 ^ k : Nat)) := by
      rw [inUlps, show (sig : Int) - m.log2 = -((k + 1 : Nat) : Int) by omega, zpow_neg, zpow_natCast, pow_succ']
      push_cast
      rfl
    rw [hulps, roundEvenSignificand, if_neg (by omega), hk]
    have := nearestEven_div m (Nat.two_pow_pos k)
    rw [← pow_succ'] at this
    exact this

theorem roundEvenSignificand_le (sig m : Nat) : roundEvenSignificand sig m ≤ 2 ^ (sig + 1) := by
  have hnear := (abs_le.1 (nearestEven_roundEvenSignificand sig m).1).2
  have hlt := inUlps_lt sig m
  have : (roundEvenSignificand sig m : ℚ) < ((2 ^ (sig + 1) + 1 : Nat) : ℚ) := by
    push_cast at hlt ⊢
    linarith
  exact Nat.lt_succ_iff.1 (by exact_mod_cast this)

/-- The rounded magnitude stays below the next exponent. -/
theorem roundEvenMagnitude_le (sig bias m frac : Nat) :
    roundEvenMagnitude sig bias m frac ≤ (m.log2 + bias - frac + 1) * 2 ^ sig := by
  have hq := roundEvenSignificand_le sig m
  rw [pow_succ] at hq
  unfold roundEvenMagnitude
  split
  · exact Nat.zero_le _
  · rw [add_mul]
    omega

section

variable {sig bias m frac : Nat}

/-- The size of a step between values with the exponent of `m / 2^frac`. -/
def ulp (sig m frac : Nat) : ℚ := 2 ^ ((m.log2 : Int) - frac - sig)

theorem ulp_pos (sig m frac : Nat) : 0 < ulp sig m frac := by
  unfold ulp; positivity

theorem inUlps_mul_ulp (sig m frac : Nat) : inUlps sig m * ulp sig m frac = m / 2 ^ frac := by
  rw [inUlps, ulp, mul_assoc, ← zpow_add₀ two_ne_zero,
    show (sig : Int) - m.log2 + (m.log2 - frac - sig) = -frac by ring, zpow_neg, zpow_natCast, div_eq_mul_inv]

theorem magnitude_roundEvenMagnitude (hm : m ≠ 0) (hfrac : frac < bias) :
    magnitude sig bias (roundEvenMagnitude sig bias m frac) = roundEvenSignificand sig m * ulp sig m frac := by
  rw [roundEvenMagnitude, if_neg hm,
    magnitude_add (by omega) (roundEvenSignificand_ge hm) (roundEvenSignificand_le sig m), ulp]
  congr 2
  omega

/-- The last bit of the pattern is the last bit of its significand. -/
theorem roundEvenMagnitude_mod_two (hm : m ≠ 0) (hsig : 0 < sig) :
    roundEvenMagnitude sig bias m frac % 2 = roundEvenSignificand sig m % 2 := by
  have hge := roundEvenSignificand_ge (sig := sig) hm
  obtain ⟨k, rfl⟩ := Nat.exists_eq_succ_of_ne_zero hsig.ne'
  rw [Nat.succ_eq_add_one, pow_succ] at *
  rw [roundEvenMagnitude, if_neg hm, pow_succ, ← mul_assoc]
  omega

/-- Every value of the format, of either sign, is below the values with the exponent of `m / 2^frac`, or a whole
number of their steps. -/
theorem lt_or_eq_mul_ulp (hfrac : frac < bias) {r : ℚ} {n : Nat} (hr : |r| = magnitude sig bias n) :
    r / ulp sig m frac < (2 ^ sig : Nat) ∨ ∃ k : Int, r / ulp sig m frac = k := by
  have hu := ulp_pos sig m frac
  have hexp : (((m.log2 + bias - frac : Nat) : Int) - bias - sig) = m.log2 - frac - sig := by omega
  rcases magnitude_lt_or_eq_mul sig bias (m.log2 + bias - frac) n with hlt | ⟨k, hk⟩
  · left
    rw [div_lt_iff₀ hu]
    calc r ≤ |r| := le_abs_self r
      _ < 2 ^ ((sig : Int) + (m.log2 - frac - sig)) := by
          rw [hr]
          refine hlt.trans_eq (congrArg _ ?_)
          omega
      _ = (2 ^ sig : Nat) * ulp sig m frac := by
          rw [zpow_add₀ two_ne_zero, ulp]
          norm_cast
  · right
    rw [hexp, ← hr] at hk
    rcases abs_eq_abs.1 (hk.trans (abs_of_nonneg (by positivity)).symm) with h | h
    · exact ⟨k, by rw [h, Int.cast_natCast]; exact mul_div_cancel_right₀ _ hu.ne'⟩
    · exact ⟨-k, by rw [h, neg_div, Int.cast_neg, Int.cast_natCast]; exact congrArg _ (mul_div_cancel_right₀ _ hu.ne')⟩

/-- Of the values of the format, of either sign, none is nearer to `m / 2^frac` than the rounded one, which is even
where another is equally near. -/
theorem roundEvenMagnitude_best (hsig : 0 < sig) (hm : m ≠ 0) (hfrac : frac < bias) {r : ℚ} {n : Nat}
    (hr : |r| = magnitude sig bias n) :
    |magnitude sig bias (roundEvenMagnitude sig bias m frac) - m / 2 ^ frac| ≤ |r - m / 2 ^ frac| ∧
      (|magnitude sig bias (roundEvenMagnitude sig bias m frac) - m / 2 ^ frac| = |r - m / 2 ^ frac| →
        r ≠ magnitude sig bias (roundEvenMagnitude sig bias m frac) →
        roundEvenMagnitude sig bias m frac % 2 = 0) := by
  have hu := ulp_pos sig m frac
  obtain ⟨hle, heven⟩ := (nearestEven_roundEvenSignificand sig m).best (le_inUlps hm sig)
    (lt_or_eq_mul_ulp (m := m) hfrac hr)
  have hscale : ∀ x : ℚ, |x * ulp sig m frac - m / 2 ^ frac| = |x - inUlps sig m| * ulp sig m frac := fun x => by
    rw [← inUlps_mul_ulp sig m frac, ← sub_mul, abs_mul, abs_of_pos hu]
  obtain ⟨x, rfl⟩ : ∃ x, r = x * ulp sig m frac := ⟨r / ulp sig m frac, (div_mul_cancel₀ r hu.ne').symm⟩
  rw [mul_div_cancel_right₀ _ hu.ne'] at hle heven
  rw [magnitude_roundEvenMagnitude hm hfrac, hscale, hscale, roundEvenMagnitude_mod_two hm hsig]
  exact ⟨mul_le_mul_of_nonneg_right hle hu.le, fun heq hne =>
    heven (mul_right_cancel₀ hu.ne' heq) fun h => hne (by rw [h])⟩

/-- A number of at most `sig + 1` bits is represented exactly. -/
theorem magnitude_roundEvenMagnitude_exact (hm : m < 2 ^ (sig + 1)) (hfrac : frac < bias) :
    magnitude sig bias (roundEvenMagnitude sig bias m frac) = m / 2 ^ frac := by
  by_cases hzero : m = 0
  · subst hzero
    rw [roundEvenMagnitude_zero, Nat.cast_zero, zero_div, magnitude, significand, Nat.zero_div, if_pos rfl,
      Nat.zero_mod, Nat.cast_zero, zero_mul]
  · have hlog : m.log2 ≤ sig := Nat.lt_succ_iff.1 ((Nat.log2_lt hzero).2 hm)
    rw [magnitude_roundEvenMagnitude hzero hfrac, roundEvenSignificand_of_le hlog, inUlps_mul_ulp]

end

/-! ## Signed values -/

/-- The rational of a sign bit and magnitude bits. -/
def value (sig bias : Nat) (neg : Bool) (n : Nat) : ℚ := sign neg * magnitude sig bias n

theorem sign_true : sign true = -1 := rfl

theorem sign_false : sign false = 1 := rfl

theorem abs_sign (neg : Bool) : |sign neg| = 1 := by cases neg <;> norm_num [sign]

theorem sign_mul_sign (neg : Bool) : sign neg * sign neg = 1 := by cases neg <;> norm_num [sign]

theorem abs_value (sig bias : Nat) (neg : Bool) (n : Nat) : |value sig bias neg n| = magnitude sig bias n := by
  rw [value, abs_mul, abs_sign, one_mul, abs_of_nonneg (magnitude_nonneg sig bias n)]

theorem intCast_eq_sign_mul (raw : Int) : (raw : ℚ) = sign (decide (raw < 0)) * raw.natAbs := by
  rcases lt_or_ge raw 0 with h | h
  · rw [decide_eq_true h, sign_true, Nat.cast_natAbs, abs_of_neg h]
    push_cast
    ring
  · rw [decide_eq_false h.not_gt, sign_false, Nat.cast_natAbs, abs_of_nonneg h, one_mul]

/-- The value of `raw * 2^-frac` rounded to a format, nearest with ties to even. -/
def rounded (sig bias : Nat) (raw : Int) (frac : Nat) : ℚ :=
  value sig bias (decide (raw < 0)) (roundEvenMagnitude sig bias raw.natAbs frac)

theorem rounded_exact {sig bias frac : Nat} {raw : Int} (hraw : |raw| < 2 ^ (sig + 1)) (hfrac : frac < bias) :
    rounded sig bias raw frac = raw / 2 ^ frac := by
  have hm : raw.natAbs < 2 ^ (sig + 1) := by
    rw [Int.abs_eq_natAbs] at hraw
    exact_mod_cast hraw
  rw [rounded, value, magnitude_roundEvenMagnitude_exact hm hfrac, intCast_eq_sign_mul raw, mul_div_assoc]

/-- No value of the format is nearer to `raw * 2^-frac` than the rounded one, which is even where another is equally
near. -/
theorem rounded_best {sig bias frac : Nat} (hsig : 0 < sig) (hfrac : frac < bias) (raw : Int) (neg : Bool) (n : Nat) :
    |rounded sig bias raw frac - raw / 2 ^ frac| ≤ |value sig bias neg n - raw / 2 ^ frac| ∧
      (|rounded sig bias raw frac - raw / 2 ^ frac| = |value sig bias neg n - raw / 2 ^ frac| →
        value sig bias neg n ≠ rounded sig bias raw frac →
        roundEvenMagnitude sig bias raw.natAbs frac % 2 = 0) := by
  by_cases hraw : raw = 0
  · subst hraw
    rw [rounded_exact (by norm_num) hfrac, sub_self, abs_zero]
    exact ⟨abs_nonneg _, fun _ _ => rfl⟩
  · obtain ⟨σ, hσ⟩ : ∃ σ, σ = sign (decide (raw < 0)) := ⟨_, rfl⟩
    have hsq : σ * σ = 1 := hσ ▸ sign_mul_sign _
    have habs : |σ| = 1 := hσ ▸ abs_sign _
    have hdist : ∀ x : ℚ, |x - raw / 2 ^ frac| = |σ * x - raw.natAbs / 2 ^ frac| := fun x => by
      rw [← one_mul |x - _|, ← habs, ← abs_mul, intCast_eq_sign_mul raw, ← hσ, mul_sub, mul_div_assoc, ← mul_assoc, hsq,
        one_mul]
    have hr : |σ * value sig bias neg n| = magnitude sig bias n := by rw [abs_mul, habs, one_mul, abs_value]
    have hbest := roundEvenMagnitude_best hsig (Int.natAbs_ne_zero.2 hraw) hfrac hr
    rw [hdist, hdist, rounded, value, ← hσ, ← mul_assoc, hsq, one_mul]
    refine ⟨hbest.1, fun heq hne => hbest.2 heq fun h => hne ?_⟩
    rw [← h, ← mul_assoc, hsq, one_mul]

/-! ## binary64 and binary32 patterns (R15) -/

/-- The fraction field of a pattern with `k` magnitude bits. -/
theorem fraction_toNat {w sig k : Nat} (x : BitVec w) (h : sig ≤ k) :
    (x.extractLsb' 0 sig).toNat = x.toNat % 2 ^ k % 2 ^ sig := by
  rw [BitVec.extractLsb'_toNat, Nat.shiftRight_zero, Nat.mod_mod_of_dvd _ (pow_dvd_pow 2 h)]

/-- The exponent field of a pattern with `k` magnitude bits. -/
theorem exponent_toNat {w sig len k : Nat} (x : BitVec w) (h : sig + len = k) :
    (x.extractLsb' sig len).toNat = x.toNat % 2 ^ k / 2 ^ sig := by
  rw [BitVec.extractLsb'_toNat, Nat.shiftRight_eq_div_pow, ← h, pow_add, Nat.mod_mul_right_div_self]

theorem real64_eq_value (x : Word) : real64 x = value 52 1023 (x.getLsbD 63) (x.toNat % 2 ^ 63) := by
  rw [value, magnitude_eq_fields, ← fraction_toNat x (by decide : 52 ≤ 63), ← exponent_toNat x (rfl : 52 + 11 = 63)]
  rfl

/-- The value of a pattern by the model's significand and scale. -/
theorem real64_eq_significand (x : Word) :
    real64 x = sign (x.getLsbD 63) * (binary64Significand x * 2 ^ ((binary64Scale x : Int) - 1075)) := by
  have hsig : binary64Significand x = significand 52 (x.toNat % 2 ^ 63) := by
    rw [binary64Significand, binary64Exponent, binary64Fraction, fraction_toNat x (by decide : 52 ≤ 63),
      exponent_toNat x (rfl : 52 + 11 = 63), significand]
  have hscale : binary64Scale x = scale 52 (x.toNat % 2 ^ 63) := by
    rw [binary64Scale, binary64Exponent, exponent_toNat x (rfl : 52 + 11 = 63), scale]
  rw [real64_eq_value, value, magnitude, hsig, hscale]
  congr 3
  push_cast
  ring

theorem real32_eq_value (x : BitVec 32) : real32 x = value 23 127 (x.getLsbD 31) (x.toNat % 2 ^ 31) := by
  rw [value, magnitude_eq_fields, ← fraction_toNat x (by decide : 23 ≤ 31), ← exponent_toNat x (rfl : 23 + 8 = 31)]
  rfl

theorem finite64_iff (x : Word) : Finite64 x ↔ x.toNat % 2 ^ 63 / 2 ^ 52 ≠ 2047 := by
  rw [← exponent_toNat x (rfl : 52 + 11 = 63)]
  exact BitVec.toNat_ne_iff_ne.symm

theorem finite32_iff (x : BitVec 32) : Finite32 x ↔ x.toNat % 2 ^ 31 / 2 ^ 23 ≠ 255 := by
  rw [← exponent_toNat x (rfl : 23 + 8 = 31)]
  exact BitVec.toNat_ne_iff_ne.symm

/-- The sign bit of a pattern made of a sign and `w` magnitude bits. -/
theorem getLsbD_ofBool_append (neg : Bool) {w : Nat} (y : BitVec w) : (BitVec.ofBool neg ++ y).getLsbD w = neg := by
  rw [BitVec.getLsbD_append]
  simp

theorem toNat_ofBool_append_mod (neg : Bool) {w n : Nat} (h : n < 2 ^ w) :
    (BitVec.ofBool neg ++ BitVec.ofNat w n).toNat % 2 ^ w = n := by
  rw [toNat_append_eq_add, BitVec.toNat_ofNat, Nat.mul_add_mod', Nat.mod_mod, Nat.mod_eq_of_lt h]

theorem getLsbD_zero_of_mod {w k : Nat} (x : BitVec w) (hk : 0 < k) (h : x.toNat % 2 ^ k % 2 = 0) :
    x.getLsbD 0 = false := by
  rw [Nat.mod_mod_of_dvd _ (dvd_pow_self 2 hk.ne')] at h
  rw [BitVec.getLsbD, Nat.testBit_zero, h]
  rfl

/-! ## The results of FP_TO_REAL and FP_TO_FLOAT (R105, R107) -/

section

variable {raw : Int} {frac : Nat}

/-- A 64-bit raw value stays below every exponent field from `bias + 64` on. -/
theorem roundEvenMagnitude_div_lt {m c : Nat} (hlog : m.log2 < 64) (sig : Nat) {bias : Nat} (hc : bias + 64 < c)
    (frac : Nat) : roundEvenMagnitude sig bias m frac / 2 ^ sig < c := by
  have hle := Nat.div_le_div_right (c := 2 ^ sig) (roundEvenMagnitude_le sig bias m frac)
  rw [Nat.mul_div_cancel _ (Nat.two_pow_pos sig)] at hle
  omega

theorem rne64_toNat_mod (hlog : raw.natAbs.log2 < 64) :
    (rne64 raw frac).toNat % 2 ^ 63 = roundEvenMagnitude 52 1023 raw.natAbs frac :=
  toNat_ofBool_append_mod _ ((Nat.div_lt_iff_lt_mul (Nat.two_pow_pos 52)).1
    (roundEvenMagnitude_div_lt (c := 2 ^ 11) hlog 52 (by decide) frac))

theorem rne32_toNat_mod (hlog : raw.natAbs.log2 < 64) :
    (rne32 raw frac).toNat % 2 ^ 31 = roundEvenMagnitude 23 127 raw.natAbs frac :=
  toNat_ofBool_append_mod _ ((Nat.div_lt_iff_lt_mul (Nat.two_pow_pos 23)).1
    (roundEvenMagnitude_div_lt (c := 2 ^ 8) hlog 23 (by decide) frac))

theorem real64_rne64 (hlog : raw.natAbs.log2 < 64) : real64 (rne64 raw frac) = rounded 52 1023 raw frac := by
  rw [real64_eq_value, rne64_toNat_mod hlog, rne64, getLsbD_ofBool_append, rounded]

theorem real32_rne32 (hlog : raw.natAbs.log2 < 64) : real32 (rne32 raw frac) = rounded 23 127 raw frac := by
  rw [real32_eq_value, rne32_toNat_mod hlog, rne32, getLsbD_ofBool_append, rounded]

/-- Only raw 0 has the value 0. -/
theorem eq_zero_of_div_pow_eq_zero (h : (raw / 2 ^ frac : ℚ) = 0) : raw = 0 := by
  simpa using h

theorem isRne64_rne64 (hlog : raw.natAbs.log2 < 64) (hfrac : frac < 1023) :
    IsRne64 (rne64 raw frac) (raw / 2 ^ frac) := by
  refine ⟨?_, fun hzero => ?_, fun z _ => ?_⟩
  · rw [finite64_iff, rne64_toNat_mod hlog]
    exact (roundEvenMagnitude_div_lt hlog 52 (by decide) frac).ne
  · rw [eq_zero_of_div_pow_eq_zero hzero, rne64, Int.natAbs_zero, roundEvenMagnitude_zero]
    rfl
  · have hbest := rounded_best (sig := 52) (by decide) hfrac raw (z.getLsbD 63) (z.toNat % 2 ^ 63)
    rw [← real64_eq_value, ← real64_rne64 hlog, ← rne64_toNat_mod hlog] at hbest
    exact ⟨hbest.1, fun heq hne => getLsbD_zero_of_mod _ (by decide) (hbest.2 heq hne)⟩

theorem isRne32_rne32 (hlog : raw.natAbs.log2 < 64) (hfrac : frac < 127) :
    IsRne32 (rne32 raw frac) (raw / 2 ^ frac) := by
  refine ⟨?_, fun hzero => ?_, fun z _ => ?_⟩
  · rw [finite32_iff, rne32_toNat_mod hlog]
    exact (roundEvenMagnitude_div_lt hlog 23 (by decide) frac).ne
  · rw [eq_zero_of_div_pow_eq_zero hzero, rne32, Int.natAbs_zero, roundEvenMagnitude_zero]
    rfl
  · have hbest := rounded_best (sig := 23) (by decide) hfrac raw (z.getLsbD 31) (z.toNat % 2 ^ 31)
    rw [← real32_eq_value, ← real32_rne32 hlog, ← rne32_toNat_mod hlog] at hbest
    exact ⟨hbest.1, fun heq hne => getLsbD_zero_of_mod _ (by decide) (hbest.2 heq hne)⟩

end

end Sys2Proof.Binary
end

section
/-! PROOFS of 41_fixed_point.md, the commands on reals: O28, O29, O30, O37. FP_FROM_REAL is characterised by the floor
of `q + 1/2` on magnitudes, which also shows that `round_half_away` is one integer; the results of FP_TO_REAL and
FP_TO_FLOAT are the rounded values of the formats, since a legal type's values are normal numbers or zero. -/

namespace Sys2Proof.Machine

open Sys2Proof.Claims

/-- An integer of a type has at most 64 bits. -/
theorem InRange.log2_lt {t : FxType} {n : Int} (h : InRange t n) : n.natAbs.log2 < 64 := by
  have hlt : n.natAbs < 2 ^ 64 := by
    have hpow : pow2 t.width.bits ≤ 2 ^ 64 := by exact_mod_cast Nat.pow_le_pow_right two_pos t.width.bits_le
    have hpred := pow2_pred_add t.width
    unfold InRange at h
    split at h <;> omega
  by_cases hzero : n.natAbs = 0
  · rw [hzero]
    decide
  · exact (Nat.log2_lt hzero).2 hlt

theorem FxType.frac_le_of_legal {t : FxType} (h : t.legal = true) : t.frac ≤ 63 :=
  (of_decide_eq_true h).trans (min_le_right _ _)

/-! ## FP_FROM_REAL (R102) -/

/-- For `q` not negative, halves away from zero go up. -/
theorem isRoundHalfAway_iff_of_nonneg {n : Int} {q : ℚ} (hq : 0 ≤ q) : IsRoundHalfAway n q ↔ ⌊q + 1 / 2⌋ = n := by
  rw [Int.floor_eq_iff, IsRoundHalfAway, abs_le]
  constructor
  · rintro ⟨⟨hlo, hhi⟩, htie⟩
    refine ⟨by linarith, lt_of_le_of_ne (by linarith) fun heq => ?_⟩
    have hn : (n : ℚ) = q - 1 / 2 := by linarith
    have hn0 : (0 : ℚ) ≤ n := by
      have : (-1 : ℚ) < n := by linarith
      exact_mod_cast Int.le_of_sub_one_lt (by exact_mod_cast this)
    have := htie (by rw [hn, sub_sub_cancel, abs_of_nonneg (by norm_num)])
    rw [abs_of_nonneg hq, abs_of_nonneg hn0] at this
    linarith
  · rintro ⟨hle, hlt⟩
    refine ⟨⟨by linarith, by linarith⟩, fun htie => ?_⟩
    have hn : (n : ℚ) = q + 1 / 2 := by
      rcases (abs_eq (by norm_num)).1 htie with h | h <;> linarith
    rw [hn, abs_of_nonneg hq, abs_of_nonneg (by linarith)]
    linarith

theorem isRoundHalfAway_intCast (n : Int) : IsRoundHalfAway n n := by norm_num [IsRoundHalfAway]

theorem isRoundHalfAway_neg {n : Int} {q : ℚ} (h : IsRoundHalfAway n q) : IsRoundHalfAway (-n) (-q) := by
  unfold IsRoundHalfAway at *
  push_cast
  rwa [neg_sub_neg, abs_sub_comm, abs_neg, abs_neg]

/-- A magnitude shifted right by `roundHalfUpShift` is rounded with halves away from zero. -/
theorem isRoundHalfAway_roundHalfUpShift (m k : Nat) : IsRoundHalfAway (roundHalfUpShift m k) (m / 2 ^ k) := by
  cases k with
  | zero =>
    rw [pow_zero, div_one]
    exact isRoundHalfAway_intCast m
  | succ k =>
    rw [roundHalfUpShift_succ]
    have hpos : (0 : ℚ) < 2 ^ (k + 1) := by positivity
    have hhalf : (m : ℚ) / 2 ^ (k + 1) + 1 / 2 = ((m + 2 ^ k : Nat) : ℚ) / (2 ^ (k + 1) : Nat) := by
      push_cast
      rw [pow_succ]
      field_simp
    rw [isRoundHalfAway_iff_of_nonneg (by positivity), hhalf]
    exact Rat.floor_natCast_div_natCast _ _

/-- Only one integer is `round_half_away(q)`. -/
theorem isRoundHalfAway_unique {n n' : Int} {q : ℚ} (h : IsRoundHalfAway n q) (h' : IsRoundHalfAway n' q) : n = n' := by
  rcases le_total 0 q with hq | hq
  · have hfloor {n : Int} := isRoundHalfAway_iff_of_nonneg (n := n) hq
    exact (hfloor.1 h).symm.trans (hfloor.1 h')
  · have hfloor {n : Int} := isRoundHalfAway_iff_of_nonneg (n := n) (neg_nonneg.2 hq)
    exact neg_injective ((hfloor.1 (isRoundHalfAway_neg h)).symm.trans (hfloor.1 (isRoundHalfAway_neg h')))

/-- A magnitude `m * 2^(e - 1075)`, exact as an integer or shifted right, rounded with halves away from zero. -/
theorem isRoundHalfAway_shift (m e : Nat) :
    IsRoundHalfAway (if 1075 ≤ e then m * 2 ^ (e - 1075) else roundHalfUpShift m (1075 - e) : Nat)
      (m * 2 ^ ((e : Int) - 1075)) := by
  split
  · rename_i hle
    have hexact : (m : ℚ) * 2 ^ ((e : Int) - 1075) = ((m * 2 ^ (e - 1075) : Nat) : Int) := by
      rw [show (e : Int) - 1075 = (e - 1075 : Nat) by omega, zpow_natCast]
      push_cast
      rfl
    rw [hexact]
    exact isRoundHalfAway_intCast _
  · rename_i hlt
    rw [show (e : Int) - 1075 = -(1075 - e : Nat) by omega, zpow_neg, zpow_natCast, ← div_eq_mul_inv]
    exact isRoundHalfAway_roundHalfUpShift m _

theorem isRoundHalfAway_roundScaledReal (x : Word) (frac : Nat) :
    IsRoundHalfAway (roundScaledReal x frac) (real64 x * 2 ^ frac) := by
  have hreal : real64 x * 2 ^ frac =
      Binary.sign (x.getLsbD 63) * (binary64Significand x * 2 ^ (((binary64Scale x + frac : Nat) : Int) - 1075)) := by
    rw [Binary.real64_eq_significand, mul_assoc, mul_assoc, ← zpow_natCast, ← zpow_add₀ two_ne_zero]
    congr 3
    push_cast
    ring
  have hmag := isRoundHalfAway_shift (binary64Significand x) (binary64Scale x + frac)
  rw [hreal, roundScaledReal]
  cases x.getLsbD 63 with
  | false => rw [Binary.sign_false, one_mul]; exact hmag
  | true => rw [Binary.sign_true, neg_one_mul]; exact isRoundHalfAway_neg hmag

/-- The model's test for a NaN or an infinity is the one of R15. -/
theorem isNanOrInf_eq_true_iff (x : Word) : isNanOrInf x = true ↔ ¬ Finite64 x := by
  rw [isNanOrInf, binary64Exponent, beq_iff_eq, Finite64, not_ne_iff, BitVec.toNat_eq]
  rfl

theorem execFpFromReal_of_finite {x : Word} (h : Finite64 x) (t : FxType) (s : State) :
    execFpFromReal t x s = .next (s.finishRes (outT t (wrapT t (roundScaledReal x t.frac)))) :=
  if_neg fun hnan => (isNanOrInf_eq_true_iff x).1 hnan h

theorem execFpFromReal_of_not_finite {x : Word} (h : ¬ Finite64 x) (t : FxType) (s : State) :
    execFpFromReal t x s = .next (s.raise .invalidOperand) :=
  if_pos ((isNanOrInf_eq_true_iff x).2 h)

end Sys2Proof.Machine

namespace Sys2Proof.Proofs

open Sys2Proof.Machine Sys2Proof.Claims Sys2Proof.Binary

/-- Settles O28: the rounded magnitude, signed, is the one integer `round_half_away` allows. -/
theorem fromRealRoundsHalfAway : Obligations.FromRealRoundsHalfAway := by
  intro t a b s
  exact ⟨tForm_of_typed (op := .fpFromReal) rfl fun _ => rfl,
    fun hfin => ⟨_, _, isRoundHalfAway_roundScaledReal a t.frac, holdsReduced_wrapT t _,
      execFpFromReal_of_finite hfin t s⟩,
    fun hnan => execFpFromReal_of_not_finite hnan t s⟩

/-- Settles O29: an integer of T has at most 64 bits, and F at most 63, so the result is a normal number or zero. -/
theorem toRealIsNearestEven : Obligations.ToRealIsNearestEven := by
  intro t a b s ht
  have hlog := (valT_inRange t a).log2_lt
  have hfrac : t.frac < 1023 := (FxType.frac_le_of_legal ht).trans_lt (by decide)
  exact ⟨tForm_of_typed (op := .fpToReal) rfl fun _ => rfl, _, isRne64_rne64 hlog hfrac,
    fun hraw => (real64_rne64 hlog).trans (rounded_exact hraw hfrac), rfl⟩

/-- Settles O30: as for FP_TO_REAL, in the smaller format, whose exponents still hold every value of a type. -/
theorem toFloatIsNearestEven : Obligations.ToFloatIsNearestEven := by
  intro t a b s ht
  have hlog := (valT_inRange t a).log2_lt
  have hfrac : t.frac < 127 := (FxType.frac_le_of_legal ht).trans_lt (by decide)
  exact ⟨tForm_of_typed (op := .fpToFloat) rfl fun _ => rfl, _, isRne32_rne32 hlog hfrac,
    fun hraw => (real32_rne32 hlog).trans (rounded_exact hraw hfrac), rfl⟩

/-- Settles O37: the raw in range is read back unchanged and converted exactly, so only the rounding of FP_FROM_REAL is
left, and it is at most half a step. -/
theorem realRoundTripWithinHalfPrecision : Obligations.RealRoundTripWithinHalfPrecision := by
  intro t x n s ht hfin hround hrange hsmall
  refine ⟨_, _, execFpFromReal_of_finite hfin t s, rfl, ?_⟩
  have hn : roundScaledReal x t.frac = n := isRoundHalfAway_unique (isRoundHalfAway_roundScaledReal x t.frac) hround
  have hfrac : t.frac < 1023 := (FxType.frac_le_of_legal ht).trans_lt (by decide)
  have hpos : (0 : ℚ) < 2 ^ t.frac := by positivity
  rw [State.finishRes_res, State.finishRes_res, hn, wrapT_of_inRange hrange, valT_outT hrange,
    real64_rne64 hrange.log2_lt, rounded_exact hsmall hfrac, abs_sub_comm]
  calc |real64 x - n / 2 ^ t.frac| = |real64 x * 2 ^ t.frac - n| / 2 ^ t.frac := by
        rw [← abs_of_pos hpos, ← abs_div, abs_of_pos hpos, sub_div, mul_div_cancel_right₀ _ hpos.ne']
    _ ≤ 1 / 2 / 2 ^ t.frac := div_le_div_of_nonneg_right hround.1 hpos.le
    _ = 1 / 2 ^ t.frac / 2 := div_right_comm _ _ _

end Sys2Proof.Proofs
end

section
/-! PROOFS of 42_sector_table.md: O38, O39, O40, O41, O42, O43, O44. An entry is its exact value rounded to the nearest
integer, a half as TABLE_TIE says (`tableEntry_eq_roundTie`), so what a table holds follows from what rounding does
(`roundTie`) and from the exact value: antitone in the index, 0 at index N, at most SCALE_MAX, and a half-integer only
at the 30 degree entry, by Niven's theorem (`exactEntry_eq_half_iff`). -/

namespace Sys2Proof.Machine

open Real Sys2Proof.Claims

/-! ## Rounding to the nearest integer (R150, R152) -/

/-- `x` rounded to the nearest integer, an exact half down or up. -/
noncomputable def roundTie (tie : TableTie) (x : ℝ) : Int :=
  match tie with
  | .halfDown => ⌈x - 1 / 2⌉
  | .halfUp => ⌊x + 1 / 2⌋

theorem le_roundTie_iff {tie : TableTie} {x : ℝ} {e : Int} :
    e ≤ roundTie tie x ↔ (e : ℝ) - 1 / 2 < x ∨ ((e : ℝ) - 1 / 2 = x ∧ tie = .halfUp) := by
  cases tie with
  | halfDown =>
    have hshift : (e : ℝ) - 1 < x - 1 / 2 ↔ (e : ℝ) - 1 / 2 < x := ⟨fun h => by linarith, fun h => by linarith⟩
    rw [roundTie, Int.le_ceil_iff, hshift]
    simp
  | halfUp => rw [roundTie, Int.le_floor, ← sub_le_iff_le_add, le_iff_lt_or_eq]; simp

theorem roundTie_mono (tie : TableTie) {x y : ℝ} (h : x ≤ y) : roundTie tie x ≤ roundTie tie y := by
  cases tie with
  | halfDown => exact Int.ceil_mono (sub_le_sub_right h _)
  | halfUp => exact Int.floor_mono (add_le_add_left h _)

/-- Where rounding lands: less than one half away, or exactly one half on the side the tie rule names. -/
theorem roundTie_spec (tie : TableTie) (x : ℝ) :
    |(roundTie tie x : ℝ) - x| < 1 / 2 ∨ ((roundTie tie x : ℝ) = x - 1 / 2 ∧ tie = .halfDown) ∨
      ((roundTie tie x : ℝ) = x + 1 / 2 ∧ tie = .halfUp) := by
  rw [abs_sub_lt_iff]
  cases tie with
  | halfDown =>
    have hup : (roundTie .halfDown x : ℝ) < x - 1 / 2 + 1 := Int.ceil_lt_add_one _
    rcases (Int.le_ceil (x - 1 / 2)).lt_or_eq with hlt | heq
    · have hlt : x - 1 / 2 < roundTie .halfDown x := hlt
      exact .inl ⟨by linarith, by linarith⟩
    · exact .inr (.inl ⟨heq.symm, rfl⟩)
  | halfUp =>
    have hlow : x + 1 / 2 < (roundTie .halfUp x : ℝ) + 1 := Int.lt_floor_add_one _
    rcases (Int.floor_le (x + 1 / 2)).lt_or_eq with hlt | heq
    · have hlt : (roundTie .halfUp x : ℝ) < x + 1 / 2 := hlt
      exact .inl ⟨by linarith, by linarith⟩
    · exact .inr (.inr ⟨heq, rfl⟩)

/-- Away from the halves rounding has one answer, whatever the tie rule. -/
theorem roundTie_eq_of_abs_lt (tie : TableTie) {e : Int} {x : ℝ} (h : |(e : ℝ) - x| < 1 / 2) : roundTie tie x = e := by
  obtain ⟨hlow, hup⟩ := abs_sub_lt_iff.1 h
  cases tie with
  | halfDown => exact Int.ceil_eq_iff.2 ⟨by linarith, by linarith⟩
  | halfUp => exact Int.floor_eq_iff.2 ⟨by linarith, by linarith⟩

theorem roundTie_intCast (tie : TableTie) (n : Int) : roundTie tie n = n :=
  roundTie_eq_of_abs_lt tie (by norm_num)

theorem roundTie_halfDown_half (n : Int) : roundTie .halfDown ((n : ℝ) + 1 / 2) = n := by
  simp [roundTie]

theorem roundTie_halfUp_half (n : Int) : roundTie .halfUp ((n : ℝ) + 1 / 2) = n + 1 := by
  rw [roundTie, add_assoc, add_halves]
  exact_mod_cast Int.floor_intCast (n + 1)

/-- Rounding a value that is no half-integer is within less than one half of it. -/
theorem abs_roundTie_sub_lt (tie : TableTie) {x : ℝ} (h : ¬ ∃ n : Int, x = (n : ℝ) + 1 / 2) :
    |(roundTie tie x : ℝ) - x| < 1 / 2 := by
  rcases roundTie_spec tie x with hlt | ⟨heq, -⟩ | ⟨heq, -⟩
  · exact hlt
  · exact absurd ⟨roundTie tie x, by linarith⟩ h
  · exact absurd ⟨roundTie tie x - 1, by push_cast; linarith⟩ h

/-! ## An entry is its exact value, rounded -/

theorem entryReaches_iff_le_roundTie {c : Config} (hc : c.Legal) {i e : Nat} (hi : i ≤ c.steps) (he : 1 ≤ e) :
    entryReaches c i e = true ↔ (e : Int) ≤ roundTie c.tie (exactEntry c i) := by
  rw [entryReaches_iff hc hi he, le_roundTie_iff, Int.cast_natCast]

/-- Rounding keeps the range of the exact values. -/
theorem roundTie_exactEntry_range {c : Config} (hc : c.Legal) {i : Nat} (hi : i ≤ c.steps) (tie : TableTie) :
    0 ≤ roundTie tie (exactEntry c i) ∧ roundTie tie (exactEntry c i) ≤ c.scaleMax := by
  have h0 := roundTie_mono tie (exactEntry_nonneg hc hi)
  have h1 := roundTie_mono tie (exactEntry_le c i)
  have hzero := roundTie_intCast tie 0
  have hmax := roundTie_intCast tie c.scaleMax
  push_cast at hzero hmax
  omega

/-- The table store holds the rounded exact values (R150, R152). -/
theorem tableEntry_eq_roundTie {c : Config} (hc : c.Legal) {i : Nat} (hi : i ≤ c.steps) :
    (tableEntry c i : Int) = roundTie c.tie (exactEntry c i) := by
  obtain ⟨hnonneg, hle⟩ := roundTie_exactEntry_range hc hi c.tie
  have hmax : ¬ entryReaches c i (0 + 2 ^ 16) = true := by
    have := hc.2.2.2
    rw [entryReaches_iff_le_roundTie hc hi (by norm_num)]
    omega
  obtain ⟨-, -, hreached, hnext⟩ := entrySearch_spec c i 16 0 (.inl rfl) hmax
  change tableEntry c i = 0 ∨ entryReaches c i (tableEntry c i) = true at hreached
  change ¬ entryReaches c i (tableEntry c i + 1) = true at hnext
  rw [entryReaches_iff_le_roundTie hc hi (by omega)] at hnext
  rcases Nat.eq_zero_or_pos (tableEntry c i) with h0 | hpos
  · omega
  · rw [entryReaches_iff_le_roundTie hc hi hpos] at hreached
    omega

/-! ## The exact values -/

theorem stepAngle_pos (p : Nat) {j : Nat} (h : 0 < j) : 0 < stepAngle p j := by
  unfold stepAngle
  positivity

theorem stepAngle_mono (p : Nat) {i j : Nat} (h : i ≤ j) : stepAngle p i ≤ stepAngle p j := by
  unfold stepAngle
  gcongr

theorem two_mul_half_add_le {c : Config} {i : Nat} (hi : i ≤ c.steps) :
    2 * (c.steps / 2 + i) ≤ 3 * 2 ^ c.precision := by
  unfold Config.steps at *
  omega

/-- The exact values fall with the index: the cosine does, from 0 to 90 degrees (R154). -/
theorem exactEntry_antitone {c : Config} (hc : c.Legal) {i j : Nat} (hij : i ≤ j) (hj : j ≤ c.steps) :
    exactEntry c j ≤ exactEntry c i := by
  rw [exactEntry_eq_cos hc, exactEntry_eq_cos hc]
  have hle := stepAngle_le_half_pi (two_mul_half_add_le hj)
  exact mul_le_mul_of_nonneg_left (cos_le_cos_of_nonneg_of_le_pi (stepAngle_nonneg _ _) (by linarith [pi_pos])
    (stepAngle_mono _ (by omega))) (Nat.cast_nonneg _)

/-- The last exact value is that of 0 degrees (R153). -/
theorem exactEntry_steps (c : Config) : exactEntry c c.steps = 0 := by
  simp [exactEntry]

theorem stepAngle_eq_pi_div_three_iff {p j : Nat} : stepAngle p j = π / 3 ↔ j = 2 ^ p := by
  rw [stepAngle, div_eq_iff (by positivity), mul_comm, mul_right_inj' (by positivity)]
  norm_cast

/-- N is even, since P is at least 1 (R8, R9). -/
theorem half_steps_add_half_steps {c : Config} (hc : c.Legal) : c.steps / 2 + c.steps / 2 = c.steps := by
  rw [← mul_two]
  exact Nat.div_mul_cancel (dvd_pow_self 2 (Nat.ne_of_gt hc.1))

theorem half_steps_pos {c : Config} (hc : c.Legal) : 0 < c.steps / 2 := by
  have := half_steps_add_half_steps hc
  have := steps_pos c
  omega

/-- The exact value at 30 degrees (R152). -/
theorem exactEntry_half {c : Config} (hc : c.Legal) : exactEntry c (c.steps / 2) = c.scaleMax / 2 := by
  rw [exactEntry_eq_cos hc, half_steps_add_half_steps hc, stepAngle_eq_pi_div_three_iff.2 rfl, cos_pi_div_three]
  ring

/-- Niven's theorem on the angles of a table: a rational value is that of 30 degrees or of 0 degrees (R152). -/
theorem eq_half_or_exactEntry_eq_zero {c : Config} (hc : c.Legal) {i : Nat} (hi : i ≤ c.steps)
    (hq : ∃ q : ℚ, exactEntry c i = q) : i = c.steps / 2 ∨ exactEntry c i = 0 := by
  obtain ⟨q, hq⟩ := hq
  have hs : (c.scaleMax : ℝ) ≠ 0 := Nat.cast_ne_zero.2 (Nat.ne_of_gt hc.2.2.1)
  rw [exactEntry_eq_cos hc] at hq ⊢
  set θ := stepAngle c.precision (c.steps / 2 + i) with hθ
  have hpos : 0 < θ := stepAngle_pos _ (Nat.add_pos_left (half_steps_pos hc) i)
  have hle : θ ≤ π / 2 := stepAngle_le_half_pi (two_mul_half_add_le hi)
  have hangle : ∃ r : ℚ, θ = r * π := by
    refine ⟨(c.steps / 2 + i : Nat) / (3 * 2 ^ c.precision), ?_⟩
    rw [hθ, stepAngle]
    push_cast
    field_simp
  have hcos : ∃ r : ℚ, cos θ = r := by
    refine ⟨q / c.scaleMax, ?_⟩
    push_cast
    rw [← hq, mul_div_cancel_left₀ _ hs]
  rcases niven_angle_eq hangle hcos ⟨hpos.le, by linarith⟩ with h0 | h60 | h90 | h120 | h180
  · linarith
  · have hj : c.steps / 2 + i = c.steps := stepAngle_eq_pi_div_three_iff.1 h60
    have := half_steps_add_half_steps hc
    exact .inl (by omega)
  · exact .inr (by rw [h90, cos_pi_div_two, mul_zero])
  · linarith
  · have h180 : θ = π := h180
    linarith

/-- The value at 30 degrees is a half-integer exactly for odd SCALE_MAX (R152). -/
theorem exactEntry_half_eq_iff {c : Config} (hc : c.Legal) {n : Int} :
    exactEntry c (c.steps / 2) = (n : ℝ) + 1 / 2 ↔ (c.scaleMax : Int) = 2 * n + 1 := by
  have hdouble : (c.scaleMax : ℝ) / 2 = (n : ℝ) + 1 / 2 ↔ (c.scaleMax : ℝ) = 2 * n + 1 :=
    ⟨fun h => by linarith, fun h => by linarith⟩
  rw [exactEntry_half hc, hdouble]
  exact_mod_cast Iff.rfl

/-- The value to round is a half-integer only at 30 degrees, and there for odd SCALE_MAX (R152). -/
theorem exactEntry_eq_half_iff {c : Config} (hc : c.Legal) {i : Nat} (hi : i ≤ c.steps) :
    (∃ n : Int, exactEntry c i = (n : ℝ) + 1 / 2) ↔ i = c.steps / 2 ∧ c.scaleMax % 2 = 1 := by
  constructor
  · rintro ⟨n, hn⟩
    rcases eq_half_or_exactEntry_eq_zero hc hi ⟨n + 1 / 2, by rw [hn]; push_cast; rfl⟩ with rfl | h0
    · have := (exactEntry_half_eq_iff hc).1 hn
      exact ⟨rfl, by omega⟩
    · have hzero : (0 : Int) = 2 * n + 1 := by
        have : (0 : ℝ) = 2 * n + 1 := by linarith
        exact_mod_cast this
      omega
  · rintro ⟨rfl, hodd⟩
    exact ⟨c.scaleMax / 2, (exactEntry_half_eq_iff hc).2 (by omega)⟩

/-! ## Entries and reads of a table -/

/-- The content of the store is the same for both variants (R153). -/
theorem tableEntry_variant {c : Config} (hc : c.Legal) {i : Nat} (hi : i ≤ c.steps) (v : TableVariant) :
    tableEntry { c with variant := v } i = tableEntry c i := by
  have h := tableEntry_eq_roundTie (c := { c with variant := v }) hc hi
  exact_mod_cast h.trans (tableEntry_eq_roundTie hc hi).symm

/-- Entry N is 0 (R153). -/
theorem tableEntry_steps {c : Config} (hc : c.Legal) : tableEntry c c.steps = 0 := by
  have h := tableEntry_eq_roundTie hc le_rfl
  rw [exactEntry_steps, ← Int.cast_zero, roundTie_intCast] at h
  exact_mod_cast h

theorem tableEntry_le {c : Config} (hc : c.Legal) {i : Nat} (hi : i ≤ c.steps) : tableEntry c i ≤ c.scaleMax := by
  have h := (roundTie_exactEntry_range hc hi c.tie).2
  rw [← tableEntry_eq_roundTie hc hi] at h
  exact_mod_cast h

theorem tableEntry_antitone {c : Config} (hc : c.Legal) {i j : Nat} (hij : i ≤ j) (hj : j ≤ c.steps) :
    tableEntry c j ≤ tableEntry c i := by
  have h := roundTie_mono c.tie (exactEntry_antitone hc hij hj)
  rw [← tableEntry_eq_roundTie hc (hij.trans hj), ← tableEntry_eq_roundTie hc hj] at h
  exact_mod_cast h

/-- The number of entries as R150 gives it. -/
theorem tableSize_eq_ite (c : Config) :
    tableSize c = if c.variant = .rom then 2 ^ c.precision + 1 else 2 ^ c.precision := by
  unfold tableSize
  cases c.variant <;> rfl

theorem secondIndex_eq_ite (c : Config) (s : Nat) :
    secondIndex c s = if c.variant = .rom then c.steps - s else c.steps - s - 1 := by
  unfold secondIndex
  cases c.variant <;> rfl

theorem memRead_eq_some_iff {c : Config} {i e : Nat} :
    memRead c i = some e ↔ i < tableSize c ∧ tableEntry c i = e := by
  simp [memRead]

theorem le_steps_of_lt_tableSize {c : Config} {i : Nat} (h : i < tableSize c) : i ≤ c.steps := by
  unfold tableSize at h
  split at h <;> omega

theorem zext32_eq_mod (x : Word) : zext32 x = x.toNat % 2 ^ 32 := BitVec.toNat_setWidth 32 x

end Sys2Proof.Machine

namespace Sys2Proof.Proofs

open Sys2Proof.Machine Sys2Proof.Claims

/-- Settles O38: the entries of the store are the exact values, rounded (`roundTie_spec`). -/
theorem tableEntryIsRoundedSine : Obligations.TableEntryIsRoundedSine := by
  intro c i hc
  rw [← tableSize_eq_ite]
  refine ⟨fun hi => ⟨_, memRead_of_lt hi, ?_⟩, memRead_of_le⟩
  have hentry := roundTie_spec c.tie (exactEntry c i)
  rwa [← tableEntry_eq_roundTie hc (le_steps_of_lt_tableSize hi), Int.cast_natCast] at hentry

/-- Settles O39: by Niven's theorem for the tie, and elsewhere rounding does not look at the tie rule. -/
theorem tieOnlyAtThirtyDegrees : Obligations.TieOnlyAtThirtyDegrees := by
  intro c i hc hi
  have hround : ∀ tie, (tableEntry { c with tie := tie } i : Int) = roundTie tie (exactEntry c i) := fun tie =>
    tableEntry_eq_roundTie (c := { c with tie := tie }) hc hi
  have hhalf := exactEntry_eq_half_iff hc hi
  refine ⟨hhalf, fun htie => ?_, fun hne => ?_⟩
  · obtain ⟨n, hn⟩ := hhalf.2 htie
    have hdown := hround .halfDown
    have hup := hround .halfUp
    rw [hn, roundTie_halfDown_half] at hdown
    rw [hn, roundTie_halfUp_half] at hup
    obtain ⟨rfl, -⟩ := htie
    have hodd := (exactEntry_half_eq_iff hc).1 hn
    omega
  · have hnear := abs_roundTie_sub_lt .halfDown (mt hhalf.1 hne)
    have heq := roundTie_eq_of_abs_lt .halfUp hnear
    rw [← hround, ← hround] at heq
    exact_mod_cast heq.symm

/-- Settles O40: the store's content does not depend on the variant, only the number of entries does. -/
theorem ramTableIsRomTableWithoutLastEntry : Obligations.RamTableIsRomTableWithoutLastEntry := by
  intro c hc
  refine ⟨fun i hi => ?_, ?_, memRead_of_le le_rfl, fun i hi => memRead_of_le hi⟩
  · have hread : ∀ v, memRead { c with variant := v } i = some (tableEntry c i) := fun v =>
      memRead_eq_some_iff.2 ⟨lt_tableSize hi, tableEntry_variant hc hi.le v⟩
    rw [hread, hread]
  · exact memRead_eq_some_iff.2 ⟨Nat.lt_succ_self _, tableEntry_steps (c := { c with variant := .rom }) hc⟩

/-- Settles O41: rounding is monotone and keeps the integer SCALE_MAX; the value at 60 degrees is no tie. -/
theorem tableIsBoundedAndNonIncreasing : Obligations.TableIsBoundedAndNonIncreasing := by
  intro c hc
  refine ⟨fun i e he => ?_, fun i j e f hij he hf => ?_, _, memRead_of_lt (lt_tableSize (steps_pos c)), ?_⟩
  · obtain ⟨hi, rfl⟩ := memRead_eq_some_iff.1 he
    have hle := tableEntry_le hc (le_steps_of_lt_tableSize hi)
    exact ⟨hle, hle.trans_lt (Nat.lt_succ_of_le hc.2.2.2)⟩
  · obtain ⟨-, rfl⟩ := memRead_eq_some_iff.1 he
    obtain ⟨hj, rfl⟩ := memRead_eq_some_iff.1 hf
    exact tableEntry_antitone hc hij (le_steps_of_lt_tableSize hj)
  · have hne : ¬ ∃ n : Int, exactEntry c 0 = (n : ℝ) + 1 / 2 := by
      rw [exactEntry_eq_half_iff hc (Nat.zero_le _)]
      exact fun h => (half_steps_pos hc).ne h.1
    have hnear := abs_roundTie_sub_lt c.tie hne
    rw [← tableEntry_eq_roundTie hc (Nat.zero_le _)] at hnear
    simpa [exactEntry] using hnear

/-- Settles O43: `execTblRead_eq` on both sides of its check. -/
theorem tableReadInsideAndOutside : Obligations.TableReadInsideAndOutside := by
  intro a b s
  rw [← tableSize_eq_ite, ← zext32_eq_mod]
  refine ⟨decode_untyped (op := .tblRead) rfl fun _ _ => rfl, fun hi => ⟨_, memRead_of_lt hi, ?_⟩, fun hi => ?_⟩
  · exact (execTblRead_eq a s).trans (if_neg hi.not_ge)
  · exact (execTblRead_eq a s).trans (if_pos hi)

/-- Settles O42: the tables evaluated by the exact comparison. -/
theorem referenceTablesOfR162 : Obligations.ReferenceTablesOfR162 := by
  unfold Obligations.ReferenceTablesOfR162
  decide

/-- Settles O44: both indices are inside the table, so the lookup is its two reads. -/
theorem symmetricLookupIsInRange : Obligations.SymmetricLookupIsInRange := by
  intro c s hs
  rw [← secondIndex_eq_ite]
  exact ⟨_, _, memRead_of_lt (lt_tableSize hs), memRead_of_lt (secondIndex_lt hs), lookup_of_lt hs⟩

end Sys2Proof.Proofs
end

section
/-! PROOFS of 43_angle_tracker.md: O16, O45, O46, O47, O48, O50, O51, O53, O54, O55. A single-step correction inside
`[-M, 2M)` is the Euclidean remainder (`singleStep_eq_normAngle`), and `k` equal moves add up (`run_moves`). For an
admitted block SVM_UPDATE is the end of R195 on the three values the rules name (`execSvmUpdate_eq_finishChannels`),
so it always completes; what it writes depends on the parameters and ANGLE only (`execSvmUpdate_cases_of_same_angle`). -/

namespace Sys2Proof.Machine

open Sys2Proof.Claims

/-! ## The angle quantizer (R180) -/

/-- `M = 6 * 2^P` as an integer (R9). -/
theorem domain_cast (c : Config) : (c.domain : Int) = 6 * 2 ^ c.precision := by push_cast; rfl

/-- `norm` as R180 writes it. -/
theorem normAngle_eq_emod (c : Config) (x : Int) : normAngle c x = x % (6 * 2 ^ c.precision) := by
  rw [← domain_cast]
  rfl

/-- Only one value of `[0, M)` is congruent to an integer modulo M. -/
theorem normAngle_eq_of_modEq {c : Config} {x v : Int} (h0 : 0 ≤ v) (h1 : v < c.domain)
    (h : v ≡ x [ZMOD c.domain]) : normAngle c x = v :=
  h.symm.eq.trans (normAngle_of_range h0 h1)

/-- A reduction before a sum does not show after it. -/
theorem normAngle_add_normAngle (c : Config) (x y : Int) :
    normAngle c (normAngle c x + y) = normAngle c (x + y) :=
  ((normAngle_modEq c x).add_right y).eq

/-- Inside `[-M, 2M)` M subtracted or added once is the whole reduction (R182). -/
theorem singleStep_eq_normAngle {c : Config} {x : Int} (h0 : -(c.domain : Int) ≤ x) (h1 : x < 2 * c.domain) :
    singleStep c.domain x = normAngle c x := by
  unfold singleStep
  split_ifs with hlarge hneg
  · exact (normAngle_eq_of_modEq (by omega) (by omega) (Int.sub_modulus_modEq_iff.2 rfl)).symm
  · exact (normAngle_eq_of_modEq (by omega) (by omega) (Int.add_modulus_modEq_iff.2 rfl)).symm
  · exact (normAngle_of_range (by omega) (by omega)).symm

/-- Outside `[-M, 2M)` one correction does not reach `[0, M)` (R182). -/
theorem singleStep_not_in_range {m x : Int} (hm : 0 < m) (hx : x < -m ∨ 2 * m ≤ x) :
    ¬ (0 ≤ singleStep m x ∧ singleStep m x < m) := by
  unfold singleStep
  split_ifs <;> omega

/-! ## Runs of equal moves (R185) -/

/-- The command word of SVM_MOVE is 0x21 (R76). -/
theorem decode_svmMove (d b : Word) : decode ⟨0x21#32, d, b⟩ = .ok (.svmMove d) :=
  decode_untyped (op := .svmMove) rfl fun _ _ => rfl

/-- `k` equal moves end with ANGLE the reduced sum of all of them. -/
theorem run_moves (d : Word) (k : Nat) : ∀ s : State, s.config.Legal → s.AngleInRange →
    s.port = List.replicate k ⟨0x21#32, d, 0#64⟩ →
    ∃ t, core.run k s = .next t ∧ t.config = s.config ∧ t.AngleInRange ∧
      t.angle.toInt = normAngle s.config (s.angle.toInt + k * sext32 d) := by
  induction k with
  | zero =>
    intro s _ hangle _
    refine ⟨s, rfl, rfl, hangle, ?_⟩
    rw [Nat.cast_zero, zero_mul, add_zero, normAngle_of_range hangle.1 hangle.2]
  | succ k ih =>
    intro s hlegal _ hport
    have hstep := step_of_decode hlegal (hport.trans List.replicate_succ) (decode_svmMove d 0#64)
    obtain ⟨t, hrun, hconfig, hrange, hsum⟩ :=
      ih ({ s with port := List.replicate k ⟨0x21#32, d, 0#64⟩ }.writeAngle
        (normAngle s.config (s.angle.toInt + sext32 d))).completeOk hlegal (angleInRange_writeAngle hlegal _) rfl
    refine ⟨t, (run_succ_of_next k hstep).trans hrun, hconfig, hrange, hsum.trans ?_⟩
    rw [State.completeOk_angle, State.writeAngle_angle, toInt_ofInt_normAngle hlegal]
    refine (normAngle_add_normAngle _ _ _).trans ?_
    congr 1
    push_cast
    ring

/-- `k` equal moves from ANGLE 0. -/
theorem run_moves_from_zero (d : Word) (k : Nat) {s : State} (hlegal : s.config.Legal) (hzero : s.angle = 0#32) :
    ∃ t, core.run k { s with port := List.replicate k ⟨0x21#32, d, 0#64⟩ } = .next t ∧ t.config = s.config ∧
      t.AngleInRange ∧ t.angle.toInt = normAngle s.config (k * sext32 d) := by
  have hinit : s.angle.toInt = 0 := by rw [hzero]; rfl
  have hangle : s.AngleInRange := by
    rw [State.AngleInRange, hinit]
    exact ⟨le_rfl, (normAngle_range s.config 0).1.trans_lt (normAngle_range s.config 0).2⟩
  obtain ⟨t, hrun, hconfig, hrange, hsum⟩ :=
    run_moves d k { s with port := List.replicate k ⟨0x21#32, d, 0#64⟩ } hlegal hangle rfl
  exact ⟨t, hrun, hconfig, hrange, by rw [hsum, hinit, zero_add]⟩

/-- SECTOR is the quotient of ANGLE by `2^P`, as integers (R24). -/
theorem sector_eq_ediv {s : State} (h : s.AngleInRange) :
    (s.sector.toNat : Int) = s.angle.toInt / 2 ^ s.config.precision := by
  rw [(sector_toNat s h).1, angle_toInt h]
  push_cast
  rfl

/-- One step back from 0 is the last angle (R183). -/
theorem normAngle_neg_one (c : Config) : normAngle c (-1) = c.domain - 1 := by
  obtain ⟨h0, h1⟩ := normAngle_range c 0
  refine normAngle_eq_of_modEq (by omega) (by omega) ?_
  rw [sub_eq_add_neg]
  exact Int.modulus_add_modEq_iff.2 rfl

/-- The last angle is the last of sector 5 (R24, R25). -/
theorem sector_of_last_angle {s : State} (hlegal : s.config.Legal) (hangle : s.AngleInRange)
    (hlast : s.angle.toInt = s.config.domain - 1) :
    s.sector.toNat = 5 ∧ s.sectorAngle.toNat = s.config.steps - 1 := by
  have hpos := steps_pos s.config
  have hnat : s.angle.toNat = s.config.steps - 1 + s.config.steps * 5 := by
    rw [angle_toInt hangle, Config.domain] at hlast
    omega
  have hlt : s.config.steps - 1 < s.config.steps := Nat.sub_lt hpos one_pos
  rw [(sector_toNat s hangle).1, sectorAngle_toNat s hlegal, hnat]
  exact ⟨by rw [Nat.add_mul_div_left _ _ hpos, Nat.div_eq_of_lt hlt],
    by rw [Nat.add_mul_mod_self_left, Nat.mod_eq_of_lt hlt]⟩

/-! ## The values of SVM_UPDATE (R190, R191, R192) -/

theorem scaleBy_eq_floor (t : FxType) (m : Int) (scale : Nat) :
    scaleBy t m scale = ⌊(scale * m : ℚ) / 2 ^ t.frac⌋ := by
  rw [scaleBy, asr_eq_floor]
  push_cast
  rfl

theorem zeroValue_eq_floor (scaleMax : Nat) (a b : Int) :
    zeroValue scaleMax a b = max 0 ⌊(scaleMax - a - b + 1 : ℚ) / 2⌋ := by
  have hfloor := asr_eq_floor (scaleMax - a - b + 1) 1
  push_cast at hfloor
  rw [pow_one] at hfloor
  rw [← hfloor]
  rfl

/-- The scaled values and the zero value as R190 and R191 give them. -/
theorem dutyParts_eq {s : State} (hlegal : s.config.Legal) (t : FxType) (m : Int) {a b : Int}
    (ha : a = scaleBy t m (tableEntry s.config s.sectorAngle.toNat))
    (hb : b = scaleBy t m (tableEntry s.config (secondIndex s.config s.sectorAngle.toNat))) :
    dutyParts s m t.frac = (zeroValue s.config.scaleMax a b, a, b) := by
  subst ha hb
  simp only [dutyParts, tablePair, sectorAngle_toNat s hlegal, ← secondIndex_eq_ite, scaleBy_eq_floor,
    zeroValue_eq_floor]

/-- Over-modulation: the numerator of the zero value is then at most 0 (R191, R194). -/
theorem zeroValue_of_lt_add {scaleMax : Nat} {a b : Int} (h : scaleMax < a + b) : zeroValue scaleMax a b = 0 := by
  unfold zeroValue floorDiv
  omega

/-- With scaled values of at most SCALE_MAX the top channel is at most twice that (R197). -/
theorem zeroValue_add_add_le {scaleMax : Nat} {a b : Int} (ha : a ≤ scaleMax) (hb : b ≤ scaleMax) :
    zeroValue scaleMax a b + a + b ≤ 2 * scaleMax := by
  unfold zeroValue floorDiv
  omega

/-- The router's table is that of R192 for the sectors that occur. -/
theorem route_eq_routed {sector : BitVec 3} (h : sector.toNat ≤ 5) (zero a b : Int) :
    route sector zero a b = some (routed sector.toNat zero a b) := by
  unfold route
  generalize sector.toNat = n at h
  interval_cases n <;> rfl

/-- In every sector one channel is the zero value (R192). -/
theorem zero_mem_routed (sector : Nat) (zero a b : Int) :
    (routed sector zero a b).1 = zero ∨ (routed sector zero a b).2.1 = zero ∨ (routed sector zero a b).2.2 = zero := by
  unfold routed
  split_ifs <;> simp

/-- A channel written with 0 is the smallest one. -/
theorem min_channels_eq_zero {c : Int × Int × Int} (h : c.1 = 0 ∨ c.2.1 = 0 ∨ c.2.2 = 0) (s : State) :
    min (withChannels s c).chn1.toNat (min (withChannels s c).chn2.toNat (withChannels s c).chn3.toNat) = 0 := by
  rcases h with h | h | h <;> simp [withChannels, h]

/-- In every sector the top channel is the sum of the three values (R192). -/
theorem top3_routed {a b : Int} (ha : 0 ≤ a) (hb : 0 ≤ b) (sector : Nat) (zero : Int) :
    top3 (routed sector zero a b) = zero + a + b := by
  unfold routed top3
  split_ifs <;> dsimp only <;> omega

/-- The top channel of an update, from its three values. -/
theorem top3_duties {s : State} (hlegal : s.config.Legal) (t : FxType) {m : Int} (hm : 0 ≤ m) {z a b : Int}
    (h : dutyParts s m t.frac = (z, a, b)) : top3 (duties s m t.frac) = z + a + b := by
  rw [dutyParts_eq hlegal t m rfl rfl] at h
  cases h
  rw [duties, dutyParts_eq hlegal t m rfl rfl]
  exact top3_routed (scaleBy_nonneg t hm _) (scaleBy_nonneg t hm _) _ _

/-- SVM_UPDATE with a factor that is not negative is the end of R195 on the three values. -/
theorem execSvmUpdate_eq_finishChannels {t : FxType} {opa : Word} {s : State} (hlegal : s.config.Legal)
    (hangle : s.AngleInRange) (hm : 0 ≤ valT t opa) :
    execSvmUpdate t opa s = finishChannels (duties s (valT t opa) t.frac).1 (duties s (valT t opa) t.frac).2.1
      (duties s (valT t opa) t.frac).2.2 s := by
  obtain ⟨hsector, hle⟩ := sector_toNat s hangle
  rw [execSvmUpdate_of_nonneg hlegal hm, duties, dutyParts_eq hlegal t _ rfl rfl]
  simp only [updateFrom, route_eq_routed (hsector ▸ hle), hsector]

theorem finishChannels_of_top3_le {c : Int × Int × Int} (h : top3 c ≤ 2 ^ 32 - 1) (s : State) :
    finishChannels c.1 c.2.1 c.2.2 s = .next (withChannels s c) :=
  if_neg h.not_gt

theorem finishChannels_of_lt_top3 {c : Int × Int × Int} (h : 2 ^ 32 - 1 < top3 c) (s : State) :
    finishChannels c.1 c.2.1 c.2.2 s = .next (withFault s 5) :=
  if_pos h

/-- SVM_UPDATE writes the three values when the top one fits (R195). -/
theorem execSvmUpdate_of_top3_le {t : FxType} {opa : Word} {s : State} (hs : s.Inv) (hm : 0 ≤ valT t opa)
    (htop : top3 (duties s (valT t opa) t.frac) ≤ 2 ^ 32 - 1) :
    execSvmUpdate t opa s = .next (withChannels s (duties s (valT t opa) t.frac)) := by
  obtain ⟨hlegal, hangle, -⟩ := hs
  rw [execSvmUpdate_eq_finishChannels hlegal hangle hm, finishChannels_of_top3_le htop]

/-! ## Commands complete (R189, R220) -/

/-- SVM_UPDATE completes: its reads are inside the table and its sector occurs (R189, R24). -/
theorem execSvmUpdate_completes (t : FxType) (opa : Word) {s : State} (hs : s.Inv) :
    ∃ u, execSvmUpdate t opa s = .next u := by
  obtain ⟨hlegal, hangle, -⟩ := hs
  rcases lt_or_ge (valT t opa) 0 with hneg | hm
  · exact ⟨_, if_pos hneg⟩
  · rw [execSvmUpdate_eq_finishChannels hlegal hangle hm]
    rcases finishChannels_cases _ _ _ s with ⟨-, -, -, h⟩ | ⟨-, h⟩
    exacts [⟨_, h⟩, ⟨_, h⟩]

theorem EndsWithResult.completes {o : Outcome} {s : State} (h : EndsWithResult o s) : ∃ t, o = .next t := by
  rcases h with ⟨v, h⟩ | ⟨e, h⟩
  exacts [⟨_, h⟩, ⟨_, h⟩]

/-- Every command completes in a state with the invariant. -/
theorem exec_completes (i : Instr) {s : State} (hs : s.Inv) : ∃ t, exec i s = .next t := by
  cases i with
  | svmSetAngle opa | svmMove opa => exact ⟨_, rfl⟩
  | svmUpdate t opa => exact execSvmUpdate_completes t opa hs
  | _ => exact EndsWithResult.completes (exec_endsWithResult rfl rfl s)

/-- An idle block keeps its state (R236). -/
theorem step_of_idle {s : State} (hlegal : s.config.Legal) (hp : s.port = []) : step s = .next s := by
  rw [step, if_pos hlegal]
  simp only [State.accept, hp]

/-! ## What SVM_UPDATE depends on (R195) -/

/-- In two states with the same parameters and the same ANGLE, SVM_UPDATE writes the same channels, or raises
MODULATION_RANGE in both, or stops for the same reason in both. -/
theorem execSvmUpdate_cases_of_same_angle (t : FxType) (opa : Word) {s u : State} (hconfig : u.config = s.config)
    (hangle : u.angle = s.angle) :
    (∃ c1 c2 c3, execSvmUpdate t opa s = .next (s.writeChannels c1 c2 c3).completeOk ∧
      execSvmUpdate t opa u = .next (u.writeChannels c1 c2 c3).completeOk) ∨
    (execSvmUpdate t opa s = .next (s.raise .modulationRange) ∧
      execSvmUpdate t opa u = .next (u.raise .modulationRange)) ∨
    ∃ r, execSvmUpdate t opa s = .fault r ∧ execSvmUpdate t opa u = .fault r := by
  have hsector : u.sector = s.sector := by rw [State.sector, State.sector, hangle, hconfig]
  have hrest : u.sectorAngle = s.sectorAngle := by rw [State.sectorAngle, State.sectorAngle, hangle, hconfig]
  simp only [execSvmUpdate, updateFrom, hsector, hrest, hconfig]
  split
  · exact .inr (.inl ⟨rfl, rfl⟩)
  · split
    · split
      · rename_i c1 c2 c3 _
        by_cases hbig : pow2 32 - 1 < max c1 (max c2 c3)
        · exact .inr (.inl ⟨if_pos hbig, if_pos hbig⟩)
        · exact .inl ⟨c1, c2, c3, if_neg hbig, if_neg hbig⟩
      · exact .inr (.inr ⟨_, rfl, rfl⟩)
    · exact .inr (.inr ⟨_, rfl, rfl⟩)

end Sys2Proof.Machine

namespace Sys2Proof.Proofs

open Sys2Proof.Machine Sys2Proof.Claims

/-- Settles O16: an illegal command raises a fault, a legal one completes (`exec_completes`), an idle block stays. -/
theorem everyStepCompletes : Obligations.EveryStepCompletes := by
  intro s hs
  have hlegal := hs.1
  cases hp : s.port with
  | nil => exact ⟨s, step_of_idle hlegal hp⟩
  | cons c rest =>
    cases hd : decode c with
    | ok i =>
      rw [step_of_decode hlegal hp hd]
      exact exec_completes i (hs.withPort rest)
    | error e => exact ⟨_, step_of_decode_error hlegal hp hd⟩

/-- Settles O45: the written value is `normAngle` of the angle. -/
theorem setAngleReducesFully : Obligations.SetAngleReducesFully := by
  intro a b s hlegal
  rw [← domain_cast]
  obtain ⟨h0, h1⟩ := normAngle_range s.config (sext32 a)
  exact ⟨decode_untyped (op := .svmSetAngle) rfl fun _ _ => rfl, _, h0, h1, normAngle_modEq s.config _, rfl,
    toInt_ofInt_normAngle hlegal _⟩

/-- Settles O46: the written value is `normAngle` of the exact sum. -/
theorem moveReducesExactSum : Obligations.MoveReducesExactSum := by
  intro d b s hlegal
  rw [← domain_cast]
  obtain ⟨h0, h1⟩ := normAngle_range s.config (s.angle.toInt + sext32 d)
  exact ⟨decode_svmMove d b, _, h0, h1, normAngle_modEq s.config _, rfl, toInt_ofInt_normAngle hlegal _⟩

/-- Settles O47: by `singleStep_eq_normAngle`; the sum of ANGLE and a delta of at most M is in its range. -/
theorem singleStepCorrectionAgrees : Obligations.SingleStepCorrectionAgrees := by
  rintro a s m v ⟨-, ⟨hangle0, hangle1⟩, -⟩ hm rfl
  obtain rfl : m = s.config.domain := hm.trans (domain_cast s.config).symm
  refine ⟨fun h0 h1 => ?_, fun habs => ?_, singleStep_not_in_range (hangle0.trans_lt hangle1)⟩
  · rw [singleStep_eq_normAngle h0 h1]
    rfl
  · obtain ⟨hlow, hhigh⟩ := abs_le.1 habs
    have h0 : -(s.config.domain : Int) ≤ s.angle.toInt + (a.setWidth 32).toInt := by omega
    have h1 : s.angle.toInt + (a.setWidth 32).toInt < 2 * s.config.domain := by omega
    refine ⟨h0, h1, ?_⟩
    rw [singleStep_eq_normAngle h0 h1]
    rfl

/-- Settles O48: `k` equal moves add up to `k` or `-k` (`run_moves_from_zero`), and SECTOR is the quotient. -/
theorem sectorProgression : Obligations.SectorProgression := by
  intro k s hlegal hzero
  constructor
  · obtain ⟨t, hrun, hconfig, hrange, hangle⟩ := run_moves_from_zero 1#64 k hlegal hzero
    have hone : sext32 1#64 = 1 := by decide
    rw [hone, mul_one, normAngle_eq_emod] at hangle
    have hsector := sector_eq_ediv hrange
    rw [hangle, hconfig] at hsector
    exact ⟨t, hrun, hangle, by exact_mod_cast hsector⟩
  · obtain ⟨t, hrun, hconfig, hrange, hangle⟩ := run_moves_from_zero (BitVec.ofInt 64 (-1)) k hlegal hzero
    have hminus : sext32 (BitVec.ofInt 64 (-1)) = -1 := by decide
    rw [hminus, mul_neg_one] at hangle
    have hsector := sector_eq_ediv hrange
    rw [hangle, hconfig, normAngle_eq_emod] at hsector
    refine ⟨t, hrun, hangle.trans (normAngle_eq_emod _ _), hsector, ?_⟩
    rintro rfl
    rw [Nat.cast_one, normAngle_neg_one] at hangle
    rw [← hconfig] at hlegal hangle ⊢
    exact sector_of_last_angle hlegal hrange hangle

/-- Settles O50: the end of R195 on the three values, on both sides of its check. -/
theorem updateWritesRoutedChannels : Obligations.UpdateWritesRoutedChannels := by
  intro t a b s
  refine ⟨tForm_of_typed (op := .svmUpdate) rfl fun _ => rfl, fun hneg => if_pos hneg,
    execSvmUpdate_of_top3_le, ?_⟩
  rintro ⟨hlegal, hangle, -⟩ hm htop
  exact (execSvmUpdate_eq_finishChannels hlegal hangle hm).trans (finishChannels_of_lt_top3 htop s)

/-- Settles O51: with a factor of at most 1.0 the scaled values are at most the entries, and these at most
SCALE_MAX, which has 16 bits. -/
theorem nominalFactorNeverFaults : Obligations.NominalFactorNeverFaults := by
  intro t a s hs hm hone
  have ⟨hlegal, _⟩ := hs
  have ⟨_, _, _, hmax⟩ := hlegal
  have hone' : valT t a ≤ pow2 t.frac := by simpa using hone
  have hrest := sectorAngle_lt s hlegal
  have hle : ∀ i ≤ s.config.steps, scaleBy t (valT t a) (tableEntry s.config i) ≤ s.config.scaleMax := fun i hi =>
    (scaleBy_le t hone' _).trans (by exact_mod_cast tableEntry_le hlegal hi)
  refine execSvmUpdate_of_top3_le hs hm ?_
  rw [top3_duties hlegal t hm (dutyParts_eq hlegal t _ rfl rfl)]
  exact (zeroValue_add_add_le (hle _ hrest.le)
    (hle _ (le_steps_of_lt_tableSize (secondIndex_lt hrest)))).trans (by omega)

/-- Settles O53: the numerator of the zero value is at most 0, so one channel is 0 and the top one is `a + b`. -/
theorem overModulationClampsToZero : Obligations.OverModulationClampsToZero := by
  rintro t m x s z a b hs rfl hm hparts hover hfit
  have ⟨hlegal, _⟩ := hs
  have hz : z = zeroValue s.config.scaleMax a b := by
    rw [dutyParts_eq hlegal t _ rfl rfl] at hparts
    cases hparts
    rfl
  rw [zeroValue_of_lt_add hover] at hz
  have htop := top3_duties hlegal t hm hparts.symm
  refine ⟨hz, _, execSvmUpdate_of_top3_le hs hm (by omega), rfl, rfl, min_channels_eq_zero ?_ s⟩
  rw [duties, ← hparts, hz]
  exact zero_mem_routed _ 0 a b

/-- Settles O54: the second update writes the channels that already stand there. -/
theorem updateIsIdempotent : Obligations.UpdateIsIdempotent := by
  intro t a s u h hok
  have hconfig := (exec_keeps h).1
  have hangle := onlyAngleCommandsWriteAngle _ s u rfl h
  change execSvmUpdate t a s = _ at h
  rcases execSvmUpdate_cases_of_same_angle t a hconfig hangle with
    ⟨c1, c2, c3, hx, hy⟩ | ⟨hx, -⟩ | ⟨r, hx, -⟩ <;> rw [hx] at h <;> cases h
  · exact hy
  · exact absurd hok (s.raise_code _ ▸ CommandFault.code_ne_zero _)

/-- Settles O55: the frame of each command; the angle commands complete in every state. -/
theorem angleChangeLeavesChannelsStale : Obligations.AngleChangeLeavesChannelsStale := by
  intro t a d s u _ h
  exact ⟨onlyAngleCommandsWriteAngle _ s u rfl h, ⟨_, rfl, rfl, rfl, rfl, rfl⟩, _, rfl, rfl, rfl, rfl, rfl⟩

end Sys2Proof.Proofs
end

section
/-! PROOFS of 60_exceptions.md: O17, O19. A command either ends OK and leaves FAULTS, or its whole effect is one
`raise` (`exec_endsOk_or_raises`). Since a sticky bit survives every run, `FAULTS = 0` at the end of a run says the
same of each state on the way, and there the invariant, which records the last fault in FAULTS, forces status OK. -/

namespace Sys2Proof.Machine

open Sys2Proof.Claims

/-! ## How a command ends (R220, R223) -/

/-- A command ends OK and leaves FAULTS, or raises one fault and does nothing else (R223). -/
theorem exec_endsOk_or_raises {i : Instr} {s t : State} (h : exec i s = .next t) :
    (t.code = 0 ∧ t.faults = s.faults) ∨ ∃ e, t = s.raise e := by
  rcases exec_next_cases h with ⟨-, -, v, rfl⟩ | ⟨-, e, rfl⟩ | ⟨-, -, x, rfl⟩ | ⟨-, -, c1, c2, c3, rfl⟩
  · exact .inl ⟨s.finishRes_code v, rfl⟩
  · exact .inr ⟨e, rfl⟩
  · exact .inl ⟨State.completeOk_code _, rfl⟩
  · exact .inl ⟨State.completeOk_code _, rfl⟩

/-- The same of a step that accepts a command, legal or not (R78, R226). -/
theorem step_endsOk_or_raises {s t : State} {c : Command} {rest : List Command} (hp : s.port = c :: rest)
    (h : step s = .next t) :
    (t.code = 0 ∧ t.faults = s.faults) ∨ ∃ e, t = { s with port := rest }.raise e := by
  obtain ⟨-, ⟨hnil, -⟩ | ⟨c', rest', hp', hends⟩⟩ := step_cases h
  · rw [hp] at hnil
    cases hnil
  · obtain ⟨rfl, rfl⟩ := List.cons.inj (hp.symm.trans hp')
    rcases hends with ⟨i, -, hx⟩ | ⟨-, rfl⟩
    · exact exec_endsOk_or_raises hx
    · exact .inr ⟨.illegalCommand, rfl⟩

/-- `FAULTS[E] <- 1` sets the bit of weight `2^E` (R223). -/
theorem State.raise_eq_withFault (s : State) (e : CommandFault) : s.raise e = withFault s e.code := by
  cases e <;> rfl

/-! ## Runs without a fault (R225) -/

/-- A run that ends with `FAULTS = 0` began with it: a set bit would have stayed set. -/
theorem faultFree_of_run {n : Nat} {s t : State} (h : core.run n s = .next t) (ht : t.FaultFree) : s.FaultFree := by
  refine BitVec.eq_of_getLsbD_eq fun k _ => ?_
  have hsticky : s.faults.getLsbD k = true → t.faults.getLsbD k = true := fun hk =>
    run_keeps (P := fun u => u.faults.getLsbD k = true)
      (fun u v hu hstep => Proofs.faultsAreSticky u v k hstep hu) n s t hk h
  simpa [show t.faults = 0#8 from ht] using hsticky

/-- With the last fault recorded in FAULTS, `FAULTS = 0` leaves only status OK (R225). -/
theorem State.Inv.code_eq_zero {s : State} (h : s.Inv) (hfree : s.FaultFree) : s.code = 0 := by
  obtain ⟨-, -, -, -, hrecorded, -⟩ := h
  by_contra hne
  have hbit := hrecorded hne
  rw [show s.faults = 0#8 from hfree, BitVec.getLsbD_zero] at hbit
  cases hbit

end Sys2Proof.Machine

namespace Sys2Proof.Proofs

open Sys2Proof.Machine

/-- Settles O19: by induction over the states on the way, from each of which the rest of the run ends with
`FAULTS = 0`. -/
theorem faultFreeEndMeansNoCommandFaulted : Obligations.FaultFreeEndMeansNoCommandFaulted := by
  intro n s t hinv hrun ht m hm
  induction m generalizing n s with
  | zero =>
    have hfree := faultFree_of_run hrun ht
    exact ⟨s, rfl, hfree, hinv.code_eq_zero hfree⟩
  | succ m ih =>
    obtain ⟨k, rfl⟩ := Nat.exists_eq_add_of_le' (Nat.one_le_of_lt hm)
    obtain ⟨u, hstep, hrest⟩ := run_succ_eq_next hrun
    rw [run_succ_of_next m hstep]
    exact ih k u (everyStepKeepsInvariant s u hinv hstep) hrest (Nat.le_of_succ_le_succ hm)

/-- Settles O17: the code of the ending tells a raised fault from status OK. -/
theorem faultsArePrecise : Obligations.FaultsArePrecise := by
  intro s t c rest hp h
  rcases step_endsOk_or_raises hp h with ⟨hok, hfaults⟩ | ⟨e, rfl⟩
  · exact ⟨fun hne => absurd hok hne, fun _ => hfaults⟩
  · rw [State.raise_code]
    exact ⟨fun _ => State.raise_eq_withFault _ e, fun hzero => absurd hzero e.code_ne_zero⟩

end Sys2Proof.Proofs
end

section
/-! PROOFS of 70_reset_and_hazards.md: O12. Every reset leaves the registers of `State.afterReset`
(`eq_afterReset_of_justReset`), the channels are those of O13, and the registers computed from ANGLE are 0 with it. -/

namespace Sys2Proof.Machine

/-- With ANGLE 0 the block stands in sector 0 (R24). -/
theorem sector_eq_zero_of_angle {s : State} (h : s.angle = 0#32) : s.sector = 0#3 := by
  simp [State.sector, h]

/-- With ANGLE 0 the block stands at the start of its sector (R25). -/
theorem sectorAngle_eq_zero_of_angle {s : State} (h : s.angle = 0#32) : s.sectorAngle = 0#32 := by
  simp [State.sectorAngle, h]

end Sys2Proof.Machine

namespace Sys2Proof.Proofs

open Sys2Proof.Machine

/-- Settles O12: the channel reads are those of O13, the other registers are read off `State.afterReset`. -/
theorem resetValues : Obligations.ResetValues := by
  intro c t _ hreset
  obtain ⟨hchannels, hnone, -⟩ := channelsHoldNoValueUntilUpdate
  obtain ⟨hzero, hundef⟩ := hchannels c t hreset
  have hnoValue : c.outReset = .undefined →
      t.hostRead .chn1 = none ∧ t.hostRead .chn2 = none ∧ t.hostRead .chn3 = none := by
    intro h
    simp [hnone, hundef h]
  obtain ⟨cs, rfl⟩ := eq_afterReset_of_justReset hreset
  refine ⟨rfl, ?sector, ?sectorAngle, hzero, hnoValue, rfl, rfl, rfl, rfl, rfl⟩
  case sector => rw [State.hostRead, sector_eq_zero_of_angle rfl, BitVec.setWidth_zero]
  case sectorAngle => rw [State.hostRead, sectorAngle_eq_zero_of_angle rfl, BitVec.setWidth_zero]

end Sys2Proof.Proofs
end

section
/-! PROOFS of 10_state.md R20, R21, 60_exceptions.md R236 and 20_memory.md R53: O8, O10, O57. The two steps are those
of `step_of_decode` and `step_of_idle`. The bytes of a word are its low base-256 digits (`ofDigits_littleEndian`),
and they lose nothing of a register because its read fits in its bytes (`hostRead_lt`). -/

namespace Sys2Proof.Machine

/-! ## The bytes of a word (R53) -/

@[simp] theorem littleEndian_length (n : Nat) (x : Word) : (littleEndian n x).length = n := by
  simp [littleEndian]

@[simp] theorem littleEndian_zero (x : Word) : littleEndian 0 x = [] := rfl

/-- One byte more is the next eight bits, at the highest address. -/
theorem littleEndian_succ (n : Nat) (x : Word) :
    littleEndian (n + 1) x = littleEndian n x ++ [x.extractLsb' (8 * n) 8] := by
  simp [littleEndian, List.range_succ]

/-- Byte `n` of a word is digit `n` of its base-256 expansion. -/
theorem extractLsb'_byte_toNat (n : Nat) (x : Word) : (x.extractLsb' (8 * n) 8).toNat = x.toNat / 256 ^ n % 256 := by
  rw [BitVec.extractLsb'_toNat, Nat.shiftRight_eq_div_pow, pow_mul]
  rfl

/-- The first `n` bytes of a word are the base-256 expansion of its value modulo `256 ^ n`. -/
theorem ofDigits_littleEndian (n : Nat) (x : Word) :
    Nat.ofDigits 256 ((littleEndian n x).map BitVec.toNat) = x.toNat % 256 ^ n := by
  induction n with
  | zero => simp [Nat.mod_one]
  | succ n ih =>
    rw [littleEndian_succ, List.map_append, Nat.ofDigits_append, ih, List.length_map, littleEndian_length,
      List.map_singleton, Nat.ofDigits_singleton, extractLsb'_byte_toNat, Nat.mod_pow_succ]

/-! ## Register reads -/

/-- Zero-extended to a word, a pattern of at most `k` bits is below `2 ^ k`. -/
theorem setWidth_word_lt {w k : Nat} (x : BitVec w) (h : w ≤ k) : (x.setWidth 64).toNat < 2 ^ k :=
  calc (x.setWidth 64).toNat
    _ ≤ x.toNat := by rw [BitVec.toNat_setWidth]; exact Nat.mod_le _ _
    _ < 2 ^ w := x.isLt
    _ ≤ 2 ^ k := Nat.pow_le_pow_right (by decide) h

/-- A channel that holds a value reads as its pattern (R29, R55). -/
theorem eq_setWidth_of_readChannel {s : State} {chn : BitVec 32} {v : Word} (h : s.readChannel chn = some v) :
    v = chn.setWidth 64 := by
  unfold State.readChannel at h
  split at h
  · exact (Option.some.inj h).symm
  · cases h

/-- A register read fits in the bytes the register takes. -/
theorem hostRead_lt {s : State} {r : HostRegister} {v : Word} (h : s.hostRead r = some v) :
    v.toNat < 256 ^ r.byteCount := by
  have fits : ∀ {w : Nat} (x : BitVec w), w ≤ 8 * r.byteCount → (x.setWidth 64).toNat < 256 ^ r.byteCount := by
    intro w x hw
    have := setWidth_word_lt x hw
    rwa [pow_mul] at this
  cases r with
  | chn1 => rw [eq_setWidth_of_readChannel h]; exact fits s.chn1 (by decide)
  | chn2 => rw [eq_setWidth_of_readChannel h]; exact fits s.chn2 (by decide)
  | chn3 => rw [eq_setWidth_of_readChannel h]; exact fits s.chn3 (by decide)
  | res => exact v.isLt
  | _ => cases h; exact fits _ (by decide)

end Sys2Proof.Machine

namespace Sys2Proof.Proofs

open Sys2Proof.Machine

/-- Settles O57: `n` bytes expand the read modulo `256 ^ n`, and the read is below that. -/
theorem registersAreLittleEndian : Obligations.RegistersAreLittleEndian := by
  intro s r bytes h
  obtain ⟨v, hread, rfl⟩ := Option.map_eq_some_iff.1 h
  refine ⟨v, hread, littleEndian_length _ _, ?_⟩
  rw [ofDigits_littleEndian, Nat.mod_eq_of_lt (hostRead_lt hread)]

/-- Settles O8: `step_of_decode`, in every state. -/
theorem stepRunsTheDecodedCommand : Obligations.StepRunsTheDecodedCommand :=
  fun _ _ _ _ hlegal hport hdecode => step_of_decode hlegal hport hdecode

/-- Settles O10: `step_of_idle`, in every state. -/
theorem idleBlockKeepsItsState : Obligations.IdleBlockKeepsItsState :=
  fun _ hlegal hport => step_of_idle hlegal hport

end Sys2Proof.Proofs
end
